-- ==== Sys2Proof/Syntax.lean ====
section
/-! DEFINITION. The commands: one constructor per row of spec/opcode_table.json (30_encoding.md R72). -/

namespace Sys2Proof

/-- The eight commands of the engine (R72, R73). A command plays the part an instruction plays in an ISA (R16). -/
inductive Instr where
  /-- `NOP`, do nothing (R150). -/
  | nop
  /-- `INIT`, open a new message (R99). -/
  | init
  /-- `BLOCK`, absorb the 16 bytes in DIN0, DIN1 (R100). -/
  | block
  /-- `TAIL n`, absorb the last `n` bytes, `0 <= n <= 15` (R101). -/
  | tail (n : Nat)
  /-- `FINAL`, finalize (R102). -/
  | final
  /-- `VENC`, encode VIN (R132). -/
  | venc
  /-- `COMPOSE`, overlay the encoding on the digest (R141). -/
  | compose
  /-- `SRST`, soft reset (R151). -/
  | srst
  deriving DecidableEq, Repr

end Sys2Proof
end

