-- ==== Sys2Proof/WellFormed.lean ====
section
/-! DEFINITION. Which commands the command word can express (30_encoding.md R71). -/

namespace Sys2Proof

/-- The one check of an operand: the tail count is 0 to 15, "exactly the range of the 4-bit field" (R71). -/
def Instr.wf : Instr → Bool
  | .nop => true
  | .init => true
  | .block => true
  | .tail n => decide (n ≤ 15)
  | .final => true
  | .venc => true
  | .compose => true
  | .srst => true

end Sys2Proof
end

