-- ==== Sys2Proof/Word.lean ====
section
/-! DEFINITION. The word and byte types of the engine (00_scope.md R5, R6, R11). -/

namespace Sys2Proof

/-- A 64-bit value (R5 `XLEN`, R6): every operation on it is unsigned and modulo 2^64 (R8). -/
abbrev Word := BitVec 64

/-- One byte of a byte sequence (R11). -/
abbrev Byte := BitVec 8

end Sys2Proof
end

