-- ==== Sys2Proof/Decode.lean ====
section
/-! DEFINITION. The command word (30_encoding.md R70 to R75): the decoder, total on all 2^64 words, and the encoder. -/

namespace Sys2Proof

/-- Why a word is illegal: the three conditions of R74, in the order R75 and R176 test them. -/
inductive DecodeError where
  /-- (a) `w[63:8] != 0`. -/
  | reservedBits
  /-- (b) OP is one of 0x7 to 0xE. -/
  | reservedOp
  /-- (c) `N != 0` with an OP other than 0x3. -/
  | countWithoutTail
  deriving DecidableEq, Repr

/-- `OP = w[3:0]` (R70, R71). -/
def opField (w : Word) : BitVec 4 := w.extractLsb' 0 4

/-- `N = w[7:4]` (R70, R71). -/
def countField (w : Word) : BitVec 4 := w.extractLsb' 4 4

/-- `w[63:8]`, which must be zero (R70). -/
def zeroField (w : Word) : BitVec 56 := w.extractLsb' 8 56

/-- A command that takes no count: its N must be 0 (R70, R74 (c)). -/
def withoutCount (n : BitVec 4) (i : Instr) : Except DecodeError Instr :=
  if n = 0 then .ok i else .error .countWithoutTail

/-- The operation codes of R73, with the count of R71. -/
def decodeOp (op n : BitVec 4) : Except DecodeError Instr :=
  match op.toNat with
  | 0x0 => withoutCount n .nop
  | 0x1 => withoutCount n .init
  | 0x2 => withoutCount n .block
  | 0x3 => .ok (.tail n.toNat)
  | 0x4 => withoutCount n .final
  | 0x5 => withoutCount n .venc
  | 0x6 => withoutCount n .compose
  | 0xF => withoutCount n .srst
  | _ => .error .reservedOp

/-- The decoder of R75, without the test of ERR, which is the commands' own (`Machine.command`). -/
def decode (w : Word) : Except DecodeError Instr :=
  if zeroField w = 0 then decodeOp (opField w) (countField w) else .error .reservedBits

/-- The opcode of each command (R73). -/
def Instr.opcode : Instr → Nat
  | .nop => 0x0
  | .init => 0x1
  | .block => 0x2
  | .tail _ => 0x3
  | .final => 0x4
  | .venc => 0x5
  | .compose => 0x6
  | .srst => 0xF

/-- The count field of each command: `n` for TAIL, 0 for every other command (R70). -/
def Instr.count : Instr → Nat
  | .tail n => n
  | _ => 0

/-- The command word of a well-formed command: OP in bits 3:0, N in bits 7:4 (R70, R72). -/
def encode (i : Instr) : Word := BitVec.ofNat 64 (i.opcode + 16 * i.count)

/-- `match` of the command's row in R72. -/
def Instr.rowMatch (i : Instr) : Word := BitVec.ofNat 64 i.opcode

/-- `mask` of the command's row in R72: all 64 bits, but for the count of TAIL. -/
def Instr.rowMask : Instr → Word
  | .tail _ => 0xFFFFFFFFFFFFFF0F
  | _ => 0xFFFFFFFFFFFFFFFF

/-- The command of an opcode-table word of `nbits` bits, every bit above them 0 (a command is one 64-bit word). -/
def decodeTableWord (nbits w : Nat) : Option Instr :=
  let v := w % 2 ^ nbits
  if v < 2 ^ 64 then
    match decode (BitVec.ofNat 64 v) with
    | .ok i => some i
    | .error _ => none
  else none

end Sys2Proof
end

