-- ==== Sys2Proof/Config.lean ====
section
/-! DEFINITION. What the platform fixes for this hardware: the one open parameter `BASE`
(00_scope.md R5, 92_eei_decisions.md D3). -/

namespace Sys2Proof

/-- `BASE` counted in 8-byte slots. OPEN in the spec (D3): it has no body, so no proof can see its value.
DESIGN CHOICE (log entry 5): held in slots, because D3 assumes `BASE` is a multiple of 8. -/
opaque Config.baseSlot : Nat

/-- `BASE`: the address at which the platform places the register space (R50, D3), a multiple of 8. -/
def Config.base : Nat := 8 * Config.baseSlot

end Sys2Proof
end

