-- ==== Sys2Proof/Machine/State.lean ====
section
/-! DEFINITION. The state of the machine: the engine's seventeen elements (10_state.md R20) and, beside them,
the host's side of the port as plain data (20_memory.md R52, 70_reset_and_hazards.md R212). -/

namespace Sys2Proof.Machine

/-- `PHASE`, the 2-bit sequencing state (R28); all four values are named. -/
inductive Phase where
  /-- 0: no message begun since reset. -/
  | idle
  /-- 1: a message is open. -/
  | absorb
  /-- 2: the tail has been absorbed. -/
  | tailed
  /-- 3: H1 and H2 hold the finalized digest. -/
  | done
  deriving DecidableEq, Repr

/-- The command faults (R171). -/
inductive CmdFault where
  /-- Code 1, the word is illegal (R172). -/
  | illegalCmd
  /-- Code 2, the phase does not allow the command (R173). -/
  | sequence
  /-- Code 3, no finalized digest or no encoding to compose (R174). -/
  | notReady
  deriving DecidableEq, Repr

/-- The state of the engine: exactly the seventeen elements of R20, 685 bits. -/
structure Engine where
  /-- `H1` (R21). -/
  h1 : Word
  /-- `H2` (R21). -/
  h2 : Word
  /-- `LEN` (R22). -/
  len : Word
  /-- `SEED` (R27). -/
  seed : BitVec 32
  /-- `DIN0` (R23). -/
  din0 : Word
  /-- `DIN1` (R23). -/
  din1 : Word
  /-- `VIN` (R24). -/
  vin : Word
  /-- `VOUT0` (R25). -/
  vout0 : Word
  /-- `VOUT1` (R25). -/
  vout1 : Word
  /-- `VLEN` (R25). -/
  vlen : BitVec 4
  /-- `FP0` (R26). -/
  fp0 : Word
  /-- `FP1` (R26). -/
  fp1 : Word
  /-- `PHASE` (R28). -/
  phase : Phase
  /-- `VVALID` (R29). -/
  vvalid : Bool
  /-- `FPVALID` (R30). -/
  fpvalid : Bool
  /-- `ERR` (R31). -/
  err : Bool
  /-- `ECODE` (R31). -/
  ecode : BitVec 4
  deriving DecidableEq, Repr

/-- The engine after reset: every element is zero (R40, R201). -/
def Engine.reset : Engine where
  h1 := 0
  h2 := 0
  len := 0
  seed := 0
  din0 := 0
  din1 := 0
  vin := 0
  vout0 := 0
  vout1 := 0
  vlen := 0
  fp0 := 0
  fp1 := 0
  phase := .idle
  vvalid := false
  fpvalid := false
  err := false
  ecode := 0

/-- The thirteen registers of the register space (R51). -/
inductive Reg where
  | cmd | status | seed | len | din0 | din1 | h1 | h2 | vin | vout0 | vout1 | fp0 | fp1
  deriving DecidableEq, Repr

/-- The two kinds of host access (R52). -/
inductive AccessKind where
  | read | write
  deriving DecidableEq, Repr

/-- Why an access is not legal: the four tests of R53, in their order. The port does not report which one
(log entry 8). -/
inductive AccessFault where
  /-- (1) the size is not 8. -/
  | size
  /-- (2) the offset is not a multiple of 8. -/
  | misaligned
  /-- (3) the offset is not one of the thirteen register offsets. -/
  | noRegister
  /-- (4) the register's access right does not allow the operation. -/
  | noRight
  deriving DecidableEq, Repr

/-- What reaches the engine from outside: the two operations of the host port (R52), and reset (R200). -/
inductive HostEvent where
  /-- `MemRead(off, n)`: read `n` bytes at byte offset `off`. -/
  | memRead (off n : Nat)
  /-- `MemWrite(off, n, v)`: write the `8*n`-bit value `v` at byte offset `off`. -/
  | memWrite (off n : Nat) (v : BitVec (8 * n))
  /-- The reset input is asserted between two host operations (R200, U13). -/
  | reset
  deriving DecidableEq, Repr

/-- The answer to a host operation (R52). -/
inductive Response where
  /-- `OK` to a write. -/
  | ok
  /-- `OK` to a read, with the 64-bit value. -/
  | okData (v : Word)
  /-- `ERR`, with no value (R175, U10). -/
  | err
  deriving DecidableEq, Repr

/-- The reasons for which the machine stops. There is none: a command fault is recorded in STATUS and the engine
goes on (R177), an access fault is an answer (R175), and "the engine has no halt state" (R212). -/
inductive Fault where
  deriving DecidableEq, Repr

/-- The reasons for which an instruction has no meaning in the model. -/
inductive Refusal where
  /-- Raised only by an arm of `exec` whose command is not modelled; no arm raises it. Safe. -/
  | notModelled (mnemonic : String)
  deriving DecidableEq, Repr

/-- The machine: the engine, and the host's side of the port as plain data. The engine itself holds no queue
(R36); `incoming` and `answers` are the model's own (log entries 1 and 3). -/
structure State where
  /-- The engine (R20). -/
  engine : Engine
  /-- The host operations and resets still to be delivered, the next one first (R62). -/
  incoming : List HostEvent
  /-- The answers given so far, the oldest first (R212). -/
  answers : List Response
  deriving DecidableEq, Repr

/-- The machine right after reset (R201), with no host operation to come and none answered. -/
def State.reset : State where
  engine := Engine.reset
  incoming := []
  answers := []

/-- What one command or one step answers. -/
abbrev Result := Host.Outcome State Fault Refusal

end Sys2Proof.Machine
end

