-- ==== Sys2Proof/Machine/Flags.lean ====
section
/-! DEFINITION. The status fields and their view STATUS (10_state.md R28, R31, R32; 60_exceptions.md R171). -/

namespace Sys2Proof.Machine

/-- The number of a phase (R28). -/
def Phase.code : Phase → BitVec 2
  | .idle => 0
  | .absorb => 1
  | .tailed => 2
  | .done => 3

/-- The code recorded in ECODE (R171). -/
def CmdFault.code : CmdFault → BitVec 4
  | .illegalCmd => 1
  | .sequence => 2
  | .notReady => 3

/-- `STATUS = zext_64({VLEN, ECODE, 0b000, ERR, FPVALID, VVALID, PHASE})` (R32). -/
def Engine.status (e : Engine) : Word :=
  (e.vlen ++ e.ecode ++ 0#3 ++ BitVec.ofBool e.err ++ BitVec.ofBool e.fpvalid ++ BitVec.ofBool e.vvalid
    ++ e.phase.code).setWidth 64

/-- A block or a tail may be absorbed: `PHASE = ABSORB` (R75). -/
def Engine.mayAbsorb (e : Engine) : Bool := decide (e.phase = .absorb)

/-- The message may be finalized: `PHASE` in {ABSORB, TAILED} (R75). -/
def Engine.mayFinalize (e : Engine) : Bool := decide (e.phase = .absorb ∨ e.phase = .tailed)

/-- There is a digest and an encoding to compose: `PHASE = DONE` and `VVALID = 1` (R75). -/
def Engine.mayCompose (e : Engine) : Bool := decide (e.phase = .done) && e.vvalid

end Sys2Proof.Machine
end

