-- ==== Sys2Proof/Machine/Operands.lean ====
section
/-! DEFINITION. Byte sequences, the little-endian byte order, and the operand forms of the commands
(00_scope.md R11, 20_memory.md R56, 40_murmur3_engine.md R94). -/

namespace Sys2Proof.Machine

/-- `le64(b)`, the sum of `b[i] * 2^(8*i)` modulo 2^64; 0 for the empty sequence (R11). -/
def le64 : List Byte → Word
  | [] => 0
  | b :: bs => b.setWidth 64 + 256 * le64 bs

/-- Byte `i` of a 64-bit register value, bits `8*i+7 : 8*i` (R56). -/
def byteOf (v : Word) (i : Nat) : Byte := v.extractLsb' (8 * i) 8

/-- `bytes_le(v, n)` (R11). -/
def bytesLe (v : Word) (n : Nat) : List Byte := (List.range n).map (byteOf v)

/-- The sixteen bytes that two data registers carry: `bytes_le(a, 8) || bytes_le(b, 8)` (R56). -/
def bytesOfPair (a b : Word) : List Byte := bytesLe a 8 ++ bytesLe b 8

/-- `b[i .. j)`, the half-open range of R11. -/
def slice (b : List Byte) (i j : Nat) : List Byte := (b.drop i).take (j - i)

/-- `zext_64` of the 32-bit seed (R7, R27). -/
def zextSeed (seed : BitVec 32) : Word := seed.setWidth 64

/-- `bytemask(m) = 2^(8*m) - 1` (R94). -/
def bytemask (m : Nat) : Word := BitVec.ofNat 64 (2 ^ (8 * m) - 1)

/-- `TailWords(d0, d1, n)`: the words k1, k2 of a tail of `n` bytes (R94); `n - 8` is `max(n - 8, 0)`. -/
def tailWords (d0 d1 : Word) (n : Nat) : Word × Word :=
  (d0 &&& bytemask (min n 8), d1 &&& bytemask (n - 8))

end Sys2Proof.Machine
end

