-- ==== Sys2Proof/Machine/Ops.lean ====
section
/-! DEFINITION. The named operations over the registers (20_memory.md R51 to R55), the command fault and the return
from it (60_exceptions.md R177 to R179), and the form every command has (30_encoding.md R75). -/

namespace Sys2Proof.Machine

/-! ## The register space -/

/-- The register's byte offset (R51). -/
def Reg.offset : Reg → Nat
  | .cmd => 0x00
  | .status => 0x08
  | .seed => 0x10
  | .len => 0x18
  | .din0 => 0x20
  | .din1 => 0x28
  | .h1 => 0x30
  | .h2 => 0x38
  | .vin => 0x40
  | .vout0 => 0x48
  | .vout1 => 0x50
  | .fp0 => 0x58
  | .fp1 => 0x60

/-- The register at a byte offset; none at the reserved slots 0x68, 0x70, 0x78 and anywhere else (R51). -/
def Reg.ofOffset? : Nat → Option Reg
  | 0x00 => some .cmd
  | 0x08 => some .status
  | 0x10 => some .seed
  | 0x18 => some .len
  | 0x20 => some .din0
  | 0x28 => some .din1
  | 0x30 => some .h1
  | 0x38 => some .h2
  | 0x40 => some .vin
  | 0x48 => some .vout0
  | 0x50 => some .vout1
  | 0x58 => some .fp0
  | 0x60 => some .fp1
  | _ => none

/-- The host may read the register (R51): every one but CMD. -/
def Reg.readable : Reg → Bool
  | .cmd => false
  | _ => true

/-- The host may write the register (R51). -/
def Reg.writable : Reg → Bool
  | .cmd | .seed | .din0 | .din1 | .vin => true
  | _ => false

/-- The register's access right allows the operation (R53 (4)). -/
def Reg.allows (r : Reg) : AccessKind → Bool
  | .read => r.readable
  | .write => r.writable

/-- The tests of a host access, in the order of R53: size, alignment, offset, right. -/
def checkAccess (kind : AccessKind) (off n : Nat) : Except AccessFault Reg :=
  if n ≠ 8 then .error .size
  else if off % 8 ≠ 0 then .error .misaligned
  else
    match Reg.ofOffset? off with
    | none => .error .noRegister
    | some r => if r.allows kind then .ok r else .error .noRight

/-- The value a legal read answers (R54); CMD has no value (R33, U10). -/
def readReg (r : Reg) (e : Engine) : Option Word :=
  match r with
  | .cmd => none
  | .status => some e.status
  | .seed => some (zextSeed e.seed)
  | .len => some e.len
  | .din0 => some e.din0
  | .din1 => some e.din1
  | .h1 => some e.h1
  | .h2 => some e.h2
  | .vin => some e.vin
  | .vout0 => some e.vout0
  | .vout1 => some e.vout1
  | .fp0 => some e.fp0
  | .fp1 => some e.fp1

/-- What a legal write stores (R55): SEED takes the low 32 bits, DIN0, DIN1 and VIN the whole value. No other
register stores anything: CMD executes its word (`Machine.writeCommand`), the rest are read-only. -/
def writeReg (r : Reg) (v : Word) (e : Engine) : Engine :=
  match r with
  | .seed => { e with seed := v.setWidth 32 }
  | .din0 => { e with din0 := v }
  | .din1 => { e with din1 := v }
  | .vin => { e with vin := v }
  | _ => e

/-- The platform's address of a register-space offset (R5, R50, D3). -/
def busAddress (off : Nat) : Nat := Config.base + off

/-- The register-space offset at a platform address, if it lies in the 128 bytes (R50). -/
def busOffset? (addr : Nat) : Option Nat :=
  if Config.base ≤ addr ∧ addr < Config.base + 128 then some (addr - Config.base) else none

/-! ## Updates of the machine -/

/-- Put the engine in another state. -/
def State.withEngine (s : State) (e : Engine) : State := { s with engine := e }

/-- Give one answer to the host. -/
def State.answer (s : State) (r : Response) : State := { s with answers := s.answers ++ [r] }

/-- The machine once the next host event has been taken off. -/
def State.withIncoming (s : State) (evs : List HostEvent) : State := { s with incoming := evs }

/-- Go on from a next state; a fault or a refusal stays. -/
def onNext (f : State → State) : Result → Result
  | .next s => .next (f s)
  | .fault r => .fault r
  | .refused r => .refused r

/-! ## Command faults: entry and return -/

/-- `raise CmdFault(code)`: `ERR <- 1; ECODE <- code`, and nothing else (R177). -/
def cmdFault (c : CmdFault) (e : Engine) : Engine := { e with err := true, ecode := c.code }

/-- The way out of `ERR = 1`: the whole engine in the reset state (R151, R179, R200, R201). -/
def softReset (_ : Engine) : Engine := Engine.reset

/-! ## The form of a command -/

/-- A command other than SRST: no effect at all while `ERR = 1` (R75, R178), else its effect on the engine. -/
def command (effect : Engine → Engine) (s : State) : Result :=
  .next (if s.engine.err then s else s.withEngine (effect s.engine))

/-- A command with a precondition: its effect, or else the command fault `c` and none of its writes (R75, R177). -/
def guarded (legal : Engine → Bool) (c : CmdFault) (effect : Engine → Engine) (e : Engine) : Engine :=
  if legal e then effect e else cmdFault c e

/-- A write of an illegal word to CMD (R74, R75, R172). -/
def illegalCommand (s : State) : Result := command (cmdFault .illegalCmd) s

end Sys2Proof.Machine
end

