-- ==== Sys2Proof/Machine/Compose.lean ====
section
/-! DEFINITION. Fingerprint composition and its command COMPOSE (43_compose.md R140 to R142). -/

namespace Sys2Proof.Machine

/-- `Compose(V, D)` of R140 for any byte sequence V; refused for `len(V) > 16`, which the source calls undefined
(R142, U1). -/
def compose (v d : List Byte) : Option (List Byte) :=
  if v.length ≤ 16 then some (v ++ d.drop v.length) else none

/-- The overlay the engine performs: the first `m` of the bytes `v`, then the bytes of `d` from index `m` on. The
length is the 4-bit field VLEN, so it is at most 15 and the case `len(V) > 16` does not exist (R141, R142). -/
def overlay (m : BitVec 4) (v d : List Byte) : List Byte := v.take m.toNat ++ d.drop m.toNat

/-- COMPOSE, once its readiness test passed (R141). -/
def composeFingerprint (e : Engine) : Engine :=
  let f := overlay e.vlen (bytesOfPair e.vout0 e.vout1) (bytesOfPair e.h1 e.h2)
  { e with fp0 := le64 (slice f 0 8), fp1 := le64 (slice f 8 16), fpvalid := true }

/-- `COMPOSE`: overlay the encoding on the digest; `E_NOT_READY` unless `PHASE = DONE` and `VVALID = 1` (R141). -/
def execCompose (s : State) : Result := command (guarded Engine.mayCompose .notReady composeFingerprint) s

end Sys2Proof.Machine
end

