-- ==== Sys2Proof/Machine/Murmur3.lean ====
section
/-! DEFINITION. The hash unit: the pure functions of 40_murmur3_engine.md (R90 to R98) and the commands INIT, BLOCK,
TAIL and FINAL (R99 to R102). All arithmetic is on unsigned 64-bit values modulo 2^64 (R6, R8, R107). -/

namespace Sys2Proof.Machine

/-! ## The pure functions -/

/-- `c1` (R90). -/
def c1 : Word := 0x87c37b91114253d5

/-- `c2` (R90). -/
def c2 : Word := 0x4cf5ad432745937f

/-- `a1`, the addend in the h1 block update (R90). -/
def a1 : Word := 0x52dce729

/-- `a2`, the addend in the h2 block update (R90). -/
def a2 : Word := 0x38495ab5

/-- `f1`, the first fmix64 multiplier (R90). -/
def f1 : Word := 0xff51afd7ed558ccd

/-- `f2`, the second fmix64 multiplier (R90). -/
def f2 : Word := 0xc4ceb9fe1a85ec53

/-- `rotl64(x, r)` for `0 < r < 64` (R9; the spec takes the meaning of the name from general knowledge, G1, log
entry 12). -/
def rotl64 (x : Word) (r : Nat) : Word := (x <<< r) ||| (x >>> (64 - r))

/-- `MixK1(k)` (R91). -/
def mixK1 (k : Word) : Word := rotl64 (k * c1) 31 * c2

/-- `MixK2(k)` (R92): the constants in the other order, and the count 33. -/
def mixK2 (k : Word) : Word := rotl64 (k * c2) 33 * c1

/-- `BlockMix(h1, h2, k1, k2)` (R93): the second half uses the new h1. -/
def blockMix (h1 h2 k1 k2 : Word) : Word × Word :=
  let h1a := h1 ^^^ mixK1 k1
  let h1b := rotl64 h1a 27
  let h1c := h1b + h2
  let h1n := h1c * 5 + a1
  let h2a := h2 ^^^ mixK2 k2
  let h2b := rotl64 h2a 31
  let h2c := h2b + h1n
  let h2n := h2c * 5 + a2
  (h1n, h2n)

/-- `TailMix(h1, h2, k1, k2)` (R95). -/
def tailMix (h1 h2 k1 k2 : Word) : Word × Word := (h1 ^^^ mixK1 k1, h2 ^^^ mixK2 k2)

/-- `x ^ (x >> 33)`, the step that `Fmix64` takes three times (R96); the shift is logical (R10). -/
def xorShift33 (x : Word) : Word := x ^^^ (x >>> 33)

/-- `Fmix64(x)` (R96). -/
def fmix64 (x : Word) : Word :=
  let a := xorShift33 x
  let b := a * f1
  let c := xorShift33 b
  let d := c * f2
  xorShift33 d

/-- `Finalize(h1, h2, L)` (R97): each second addition uses the result of the first. -/
def finalize (h1 h2 len : Word) : Word × Word :=
  let p1 := h1 ^^^ len
  let p2 := h2 ^^^ len
  let q1 := p1 + p2
  let q2 := p2 + q1
  let r1 := fmix64 q1
  let r2 := fmix64 q2
  let s1 := r1 + r2
  let s2 := r2 + s1
  (s1, s2)

/-- The accumulators after the first `nb` blocks of `msg` (the loop of R98). -/
def murmurBlocks (msg : List Byte) (seed : BitVec 32) : Nat → Word × Word
  | 0 => (zextSeed seed, zextSeed seed)
  | j + 1 =>
    let h := murmurBlocks msg seed j
    blockMix h.1 h.2 (le64 (slice msg (16 * j) (16 * j + 8))) (le64 (slice msg (16 * j + 8) (16 * j + 16)))

/-- The accumulators after the blocks and the tail of `msg`, before finalization (R98). -/
def murmurAbsorbed (msg : List Byte) (seed : BitVec 32) : Word × Word :=
  let nb := msg.length / 16
  let n := msg.length % 16
  let h := murmurBlocks msg seed nb
  let t := slice msg (16 * nb) msg.length
  tailMix h.1 h.2 (le64 (slice t 0 (min n 8))) (le64 (slice t 8 n))

/-- The finalized accumulators of the reference function, before they are written out as bytes (R98). -/
def murmurWords (msg : List Byte) (seed : BitVec 32) : Word × Word :=
  let g := murmurAbsorbed msg seed
  finalize g.1 g.2 (BitVec.ofNat 64 msg.length)

/-- `Murmur3_x64_128(msg, seed)`, for a message shorter than 2^64 bytes (R98, U11). For a longer one the spec makes no
claim; that the length is then taken modulo 2^64 is the model's (DESIGN CHOICE, log entry 17). -/
def murmur3 (msg : List Byte) (seed : BitVec 32) : List Byte :=
  bytesOfPair (murmurWords msg seed).1 (murmurWords msg seed).2

/-! ## What the commands do to the engine -/

/-- INIT (R99). -/
def openMessage (e : Engine) : Engine :=
  { e with h1 := zextSeed e.seed, h2 := zextSeed e.seed, len := 0, phase := .absorb, fpvalid := false }

/-- BLOCK, once its phase allows it (R100). -/
def absorbBlock (e : Engine) : Engine :=
  let h := blockMix e.h1 e.h2 e.din0 e.din1
  { e with h1 := h.1, h2 := h.2, len := e.len + 16 }

/-- TAIL n, once its phase allows it (R101). -/
def absorbTail (n : Nat) (e : Engine) : Engine :=
  let k := tailWords e.din0 e.din1 n
  let h := tailMix e.h1 e.h2 k.1 k.2
  { e with h1 := h.1, h2 := h.2, len := e.len + BitVec.ofNat 64 n, phase := .tailed }

/-- FINAL, once its phase allows it (R102). -/
def finalizeMessage (e : Engine) : Engine :=
  let h := finalize e.h1 e.h2 e.len
  { e with h1 := h.1, h2 := h.2, phase := .done }

/-! ## The commands -/

/-- `INIT`: open a new message; legal in every phase (R99). -/
def execInit (s : State) : Result := command openMessage s

/-- `BLOCK`: absorb the 16 bytes in DIN0, DIN1; `E_SEQUENCE` unless `PHASE = ABSORB` (R100). -/
def execBlock (s : State) : Result := command (guarded Engine.mayAbsorb .sequence absorbBlock) s

/-- `TAIL n`: absorb the last `n` bytes; `E_SEQUENCE` unless `PHASE = ABSORB` (R101). -/
def execTail (n : Nat) (s : State) : Result := command (guarded Engine.mayAbsorb .sequence (absorbTail n)) s

/-- `FINAL`: finalize; `E_SEQUENCE` in IDLE and in DONE (R102). -/
def execFinal (s : State) : Result := command (guarded Engine.mayFinalize .sequence finalizeMessage) s

end Sys2Proof.Machine
end

