-- ==== Sys2Proof/Machine/System.lean ====
section
/-! DEFINITION. The system commands NOP and SRST (44_system.md R150, R151). -/

namespace Sys2Proof.Machine

/-- `NOP`: no state changes; ignored like every other command while `ERR = 1`, "which is the same thing" (R150). -/
def execNop (s : State) : Result := command id s

/-- `SRST`: soft reset; legal in every phase and, alone among commands, effective while `ERR = 1` (R151). -/
def execSrst (s : State) : Result := .next (s.withEngine (softReset s.engine))

end Sys2Proof.Machine
end

