-- ==== Sys2Proof/Machine/Varint.lean ====
section
/-! DEFINITION. The variable-length integer encoder and its command VENC (42_varint.md R130 to R134). -/

namespace Sys2Proof.Machine

/-- The loop of R130 with at most `fuel` rounds: while `v >= 128` emit the low 7 bits with the top bit set, then the
final 7 bits. -/
def varintLoop : Nat → Word → List Byte
  | 0, v => [v.setWidth 8]
  | fuel + 1, v =>
    if 128 ≤ v.toNat then ((v &&& 0x7F) ||| 0x80).setWidth 8 :: varintLoop fuel (v >>> 7) else [v.setWidth 8]

/-- `Varint(v)` (R130). Nine rounds are enough: `v >> 63` is below 128, so the bound never cuts the loop (R131). -/
def varint (v : Word) : List Byte := varintLoop 9 v

/-- The encoding padded to 16 bytes with zeros (R132). -/
def paddedVarint (v : Word) : List Byte := varint v ++ List.replicate (16 - (varint v).length) 0

/-- VENC (R132). -/
def encodeVin (e : Engine) : Engine :=
  let p := paddedVarint e.vin
  { e with
    vout0 := le64 (slice p 0 8), vout1 := le64 (slice p 8 16), vlen := BitVec.ofNat 4 (varint e.vin).length,
    vvalid := true, fpvalid := false }

/-- `VENC`: encode VIN; legal in every phase (R132). -/
def execVenc (s : State) : Result := command encodeVin s

end Sys2Proof.Machine
end

