-- ==== Sys2Proof/Machine/Dispatch.lean ====
section
/-! DEFINITION. One arm per command (30_encoding.md R75). -/

namespace Sys2Proof.Machine

def exec (i : Instr) (s : State) : Host.Outcome State Fault Refusal :=
  match i with
  | .nop => Sys2Proof.Machine.execNop s
  | .init => Sys2Proof.Machine.execInit s
  | .block => Sys2Proof.Machine.execBlock s
  | .tail n => Sys2Proof.Machine.execTail n s
  | .final => Sys2Proof.Machine.execFinal s
  | .venc => Sys2Proof.Machine.execVenc s
  | .compose => Sys2Proof.Machine.execCompose s
  | .srst => Sys2Proof.Machine.execSrst s

end Sys2Proof.Machine
end

