-- ==== Sys2Proof/Machine/Port.lean ====
section
/-! DEFINITION. The host port: what a host operation, or a reset, does to the machine (20_memory.md R52 to R55,
30_encoding.md R75, 70_reset_and_hazards.md R200). -/

namespace Sys2Proof.Machine

/-- `ExecCmd(w)` (R75): a legal word runs its command, every other word is illegal. The test of ERR stands in
`command`, which every word but exactly 0x0F goes through. -/
def writeCommand (w : Word) (s : State) : Result :=
  match decode w with
  | .ok i => exec i s
  | .error _ => illegalCommand s

/-- The answer to `MemRead(off, n)` (R53, R54). -/
def readAnswer (off n : Nat) (e : Engine) : Response :=
  match checkAccess .read off n with
  | .error _ => .err
  | .ok r =>
    match readReg r e with
    | some v => .okData v
    | none => .err

/-- `MemRead(off, n)`: answered, and no state of the engine changes (R54, R175). -/
def memRead (off n : Nat) (s : State) : Result := .next (s.answer (readAnswer off n s.engine))

/-- A legal write of the 64-bit value `v` to the register `r` (R55): answered `OK`, whatever a command does. -/
def writeRegister (r : Reg) (v : Word) (s : State) : Result :=
  match r with
  | .cmd => onNext (State.answer · .ok) (writeCommand v s)
  | _ => .next ((s.withEngine (writeReg r v s.engine)).answer .ok)

/-- `MemWrite(off, n, v)` (R53, R55, R175). A legal write has `n = 8`, so `v` is a 64-bit value. -/
def memWrite (off n : Nat) (v : BitVec (8 * n)) (s : State) : Result :=
  match checkAccess .write off n with
  | .error _ => .next (s.answer .err)
  | .ok r => writeRegister r (v.setWidth 64) s

/-- The reset input (R200, R201): the engine in the reset state; nothing is answered (R212). -/
def resetInput (s : State) : Result := .next (s.withEngine Engine.reset)

/-- One host operation, or one reset, atomic and complete (R62, R211). -/
def deliver (ev : HostEvent) (s : State) : Result :=
  match ev with
  | .memRead off n => memRead off n s
  | .memWrite off n v => memWrite off n v s
  | .reset => resetInput s

/-- The next event is taken off and delivered. With none to come nothing happens: "the engine never acts on its own"
(R14), and it has no halt state (R212; log entry 2). -/
def deliverNext (s : State) : Result :=
  match s.incoming with
  | [] => .next s
  | ev :: rest => deliver ev (s.withIncoming rest)

/-- The host operation that writes the word `w` to CMD (R79). -/
def commandWrite (w : Word) : HostEvent := .memWrite 0x00 8 w

/-- The machine whose next host operation writes to CMD the table word of `nbits` bits, every bit above them 0. -/
def withCommandFirst (s : State) (nbits w : Nat) : State :=
  s.withIncoming (commandWrite (BitVec.ofNat 64 (w % 2 ^ nbits)) :: s.incoming)

end Sys2Proof.Machine
end

