-- ==== Sys2Proof/Machine/Step.lean ====
section
/-! DEFINITION. One step: the host port delivers the next host operation or reset (20_memory.md R62). -/

namespace Sys2Proof.Machine

/-- One step of the machine: one host operation or one reset, atomic and complete when answered (R62, R211). -/
def step (s : State) : Host.Outcome State Fault Refusal := deliverNext s

/-- The machine with the command word of an opcode-table row as its next host operation: a command exists only as the
data of a write to CMD (R64), so that is where `step` finds it (log entry 4). -/
def State.withFetchWord (s : State) (nbits w : Nat) : State := withCommandFirst s nbits w

end Sys2Proof.Machine
end

