-- ==== Sys2Proof/Machine/HostSide.lean ====
section
/-! DEFINITION. The host's side of the contract: the notation for host programs (30_encoding.md R79, R80), the sampling
(41_sampling.md R120 to R127), the fingerprint (43_compose.md R143), and what the registers say to a host that reads
them. None of this is state or behaviour of the engine (log entry 7). -/

namespace Sys2Proof.Machine

/-! ## What the data registers carry -/

/-- The 16 digest bytes in H1, H2: a digest only in phase DONE (R21, R210). -/
def Engine.digest (e : Engine) : List Byte := bytesOfPair e.h1 e.h2

/-- The encoding in VOUT0, VOUT1: its first VLEN bytes (R25, R141). -/
def Engine.encoding (e : Engine) : List Byte := (bytesOfPair e.vout0 e.vout1).take e.vlen.toNat

/-- The 16 fingerprint bytes in FP0, FP1 (R26). -/
def Engine.fingerprint (e : Engine) : List Byte := bytesOfPair e.fp0 e.fp1

/-! ## Host notation -/

/-- `WR reg, value` (R79). -/
def wr (r : Reg) (v : Word) : HostEvent := .memWrite r.offset 8 v

/-- `RD reg` (R79). -/
def rd (r : Reg) : HostEvent := .memRead r.offset 8

/-- A command by its mnemonic (R79). -/
def issue (i : Instr) : HostEvent := commandWrite (encode i)

/-- `ABSORB16` of a block of 16 bytes (R80). -/
def absorb16 (b : List Byte) : List HostEvent :=
  [wr .din0 (le64 (slice b 0 8)), wr .din1 (le64 (slice b 8 16)), issue .block]

/-- `ABSORBTAIL` of at most 15 bytes (R80). -/
def absorbTailBytes (b : List Byte) : List HostEvent :=
  [wr .din0 (le64 (slice b 0 (min b.length 8))), wr .din1 (le64 (slice b 8 b.length)), issue (.tail b.length)]

/-- One `ABSORB16` per complete 16-byte block, in order (R80, R104). -/
def absorbBlocks (msg : List Byte) : List HostEvent :=
  (List.range (msg.length / 16)).flatMap fun j => absorb16 (slice msg (16 * j) (16 * j + 16))

/-- The remaining `len mod 16` bytes of a message (R80). -/
def tailOf (msg : List Byte) : List Byte := slice msg (16 * (msg.length / 16)) msg.length

/-- `HASH seed, bytes` (R80, R104). -/
def hashOps (seed : BitVec 32) (msg : List Byte) : List HostEvent :=
  [wr .seed (zextSeed seed), issue .init] ++ absorbBlocks msg ++ absorbTailBytes (tailOf msg) ++ [issue .final]

/-! ## Sampling and the fingerprint -/

/-- `S`, the sample size in bytes (R120). -/
def sampleSize : Nat := 16384

/-- `T`, the threshold in bytes (R120). -/
def sampleThreshold : Nat := 131072

/-- The start of the middle range of an input of length `len` (R121). -/
def sampleMid (len : Nat) : Nat := len / 2 - sampleSize / 2

/-- `Sample(b)` (R121). -/
def sample (b : List Byte) : List Byte :=
  if b.length < sampleThreshold then b
  else
    slice b 0 sampleSize ++ slice b (sampleMid b.length) (sampleMid b.length + sampleSize)
      ++ slice b (b.length - sampleSize) b.length

/-- `Fingerprint(b)`, for an input shorter than 2^64 bytes (R143). For a longer one the spec gives none; that the length
is then encoded modulo 2^64 is the model's (DESIGN CHOICE, log entry 17). -/
def fingerprintOf (b : List Byte) : Option (List Byte) :=
  compose (varint (BitVec.ofNat 64 b.length)) (murmur3 (sample b) 0)

/-- How the host presents the sample between INIT and FINAL (R124): with a tail below the threshold, and as blocks
alone from the threshold on. -/
def presentSample (b : List Byte) : List HostEvent :=
  if b.length < sampleThreshold then absorbBlocks b ++ absorbTailBytes (tailOf b) else absorbBlocks (sample b)

/-- The host program that computes a fingerprint, up to COMPOSE (R143); the reads of FP0 and FP1 follow it. -/
def fingerprintOps (b : List Byte) : List HostEvent :=
  [wr .seed 0, issue .init] ++ presentSample b
    ++ [issue .final, wr .vin (BitVec.ofNat 64 b.length), issue .venc, issue .compose]

/-- Byte `i` of the conformance driver's buffer (R127). -/
def driverByte (i : Nat) : Byte := BitVec.ofNat 8 (i * i + 31)

/-- The prefix of length `l` of the driver's buffer (R127). -/
def driverPrefix (l : Nat) : List Byte := (List.range l).map driverByte

end Sys2Proof.Machine
end

