-- ==== Sys2Proof/Safety.lean ====
section
/-! DEFINITION. What a run is, what counts as a safe one, the legality of commands as the spec tabulates it, and the
invariants of the state (10_state.md R41; 30_encoding.md R76 to R78; 60_exceptions.md R178; 70_reset_and_hazards.md
R210, R212). -/

namespace Sys2Proof.Machine

/-! ## Runs -/

/-- The machine after the host events `evs`, one step each (R212). -/
def runAll (evs : List HostEvent) (s : State) : Result :=
  Host.Core.run Sys2Proof.core evs.length (s.withIncoming evs)

/-- A run that reaches `ERR = 1` has gone wrong: no claim about a digest holds in it (R178). -/
def Engine.Safe (e : Engine) : Prop := e.err = false

/-- What the host must see before it uses H1, H2 (R210). -/
def Engine.DigestReady (e : Engine) : Prop := e.phase = .done ∧ e.err = false

/-- What the host must see before it uses FP0, FP1 (R210). -/
def Engine.FingerprintReady (e : Engine) : Prop := e.fpvalid = true ∧ e.err = false

/-! ## Legality, as R77 and R78 tabulate it -/

/-- `legal_in_phase` (R78), for `ERR = 0`. -/
def legalInPhase (i : Instr) (e : Engine) : Prop :=
  match i with
  | .nop | .init | .venc | .srst => True
  | .block => e.phase = .absorb
  | .tail _ => e.phase = .absorb
  | .final => e.phase = .absorb ∨ e.phase = .tailed
  | .compose => e.phase = .done ∧ e.vvalid = true

/-- `next_phase` (R77), for `ERR = 0`: the phase after the command, or the fault it raises. -/
def nextPhase (i : Instr) (p : Phase) (vvalid : Bool) : Except CmdFault Phase :=
  match i, p with
  | .nop, _ => .ok p
  | .venc, _ => .ok p
  | .init, _ => .ok .absorb
  | .srst, _ => .ok .idle
  | .block, .absorb => .ok .absorb
  | .block, _ => .error .sequence
  | .tail _, .absorb => .ok .tailed
  | .tail _, _ => .error .sequence
  | .final, .absorb => .ok .done
  | .final, .tailed => .ok .done
  | .final, _ => .error .sequence
  | .compose, .done => if vvalid then .ok .done else .error .notReady
  | .compose, _ => .error .notReady

/-- A word is illegal (R74), read on the numbers of its fields. -/
def IllegalWord (w : Word) : Prop :=
  w.toNat / 256 ≠ 0 ∨ (0x7 ≤ w.toNat % 16 ∧ w.toNat % 16 ≤ 0xE) ∨ (w.toNat % 16 ≠ 0x3 ∧ w.toNat / 16 % 16 ≠ 0)

/-- A host access is legal (the formula of R53). -/
def LegalAccess (kind : AccessKind) (off n : Nat) : Prop :=
  n = 8 ∧ off % 8 = 0 ∧
    match kind with
    | .read => off ∈ [0x08, 0x10, 0x18, 0x20, 0x28, 0x30, 0x38, 0x40, 0x48, 0x50, 0x58, 0x60]
    | .write => off ∈ [0x00, 0x10, 0x20, 0x28, 0x40]

/-! ## Invariants -/

/-- The invariants (a) to (f) of R41; (g) is the type of SEED. -/
structure Engine.Inv (e : Engine) : Prop where
  /-- (a) ECODE is 0 exactly when ERR is 0. -/
  ecode_zero : e.ecode = 0 ↔ e.err = false
  /-- (a) ECODE is one of 0, 1, 2, 3. -/
  ecode_le : e.ecode.toNat ≤ 3
  /-- (b) VLEN is 0 exactly when VVALID is 0. -/
  vlen_zero : e.vlen = 0 ↔ e.vvalid = false
  /-- (b) VLEN is at most 10. -/
  vlen_le : e.vlen.toNat ≤ 10
  /-- (c) the bytes of the encoding at index VLEN and above are zero. -/
  vout_above : (bytesOfPair e.vout0 e.vout1).drop e.vlen.toNat = List.replicate (16 - e.vlen.toNat) 0
  /-- (c) `VOUT1[63:16] = 0`. -/
  vout1_high : e.vout1.extractLsb' 16 48 = 0
  /-- (d) FPVALID implies a digest, an encoding, and that FP is their composition. -/
  fp_current : e.fpvalid = true →
    e.phase = .done ∧ e.vvalid = true ∧ compose e.encoding e.digest = some e.fingerprint
  /-- (e) in IDLE the accumulators and the counter are zero. -/
  idle_zero : e.phase = .idle → e.h1 = 0 ∧ e.h2 = 0 ∧ e.len = 0
  /-- (f) in ABSORB the counter is a multiple of 16. -/
  absorb_len : e.phase = .absorb → e.len.toNat % 16 = 0

/-! ## What the engine has been given -/

/-- What the host gave the engine, as far as the engine's registers still speak of it. It is no state of the engine: the
statements carry it beside the machine. -/
structure History where
  /-- The bytes absorbed since the last INIT, in order (R22, R66). -/
  message : List Byte
  /-- The seed that the last INIT sampled (R27, R207). -/
  seed : BitVec 32
  /-- The value that the last VENC sampled; none before the first one since reset (R29, R208). -/
  value : Option Word
  deriving DecidableEq, Repr

/-- Right after reset or SRST nothing has been given. -/
def History.fresh : History where
  message := []
  seed := 0
  value := none

/-- What has been given once the command `i` ran with `ERR = 0` on the engine `e`: INIT opens an empty message with the
seed in SEED (R99), BLOCK appends the sixteen bytes of DIN0, DIN1 (R100), TAIL n the first n of them (R101), each only
in ABSORB, VENC samples VIN (R132), and SRST forgets everything (R151). -/
def History.afterCommand (i : Instr) (e : Engine) (g : History) : History :=
  match i with
  | .nop => g
  | .init => { g with message := [], seed := e.seed }
  | .block => if e.phase = .absorb then { g with message := g.message ++ bytesOfPair e.din0 e.din1 } else g
  | .tail n =>
    if e.phase = .absorb then { g with message := g.message ++ (bytesOfPair e.din0 e.din1).take n } else g
  | .final => g
  | .venc => { g with value := some e.vin }
  | .compose => g
  | .srst => .fresh

/-- What has been given once the host event `ev` was delivered to the engine `e`: only a reset, and a command written to
CMD that is not ignored (R178), change it. -/
def History.after (ev : HostEvent) (e : Engine) (g : History) : History :=
  match ev with
  | .memRead _ _ => g
  | .memWrite off n v =>
    if off = 0x00 ∧ n = 8 then
      match decode (v.setWidth 64) with
      | .ok i => if e.err = true ∧ i ≠ .srst then g else g.afterCommand i e
      | .error _ => g
    else g
  | .reset => .fresh

/-- The engine's registers are what the rules compute from what it was given: the accumulators and the counter from the
bytes of the message and its seed (R98 to R102, R173), the encoding from the value (R132), and with FPVALID the
fingerprint from both (R141). -/
structure Engine.Meaningful (e : Engine) (g : History) : Prop where
  /-- In IDLE no message is open. -/
  idle : e.phase = .idle → g.message = [] ∧ e.h1 = 0 ∧ e.h2 = 0 ∧ e.len = 0
  /-- In ABSORB, H1 and H2 are those of the whole blocks that make up the message. -/
  absorbing : e.phase = .absorb →
    g.message.length % 16 = 0 ∧ (e.h1, e.h2) = murmurBlocks g.message g.seed (g.message.length / 16)
  /-- In TAILED, those of the blocks and the tail of the message. -/
  tailed : e.phase = .tailed → (e.h1, e.h2) = murmurAbsorbed g.message g.seed
  /-- LEN counts the bytes of the message, modulo 2^64 (R22). -/
  counted : e.phase ≠ .idle → e.len = BitVec.ofNat 64 g.message.length
  /-- In DONE, H1 and H2 are the digest of the message, which is shorter than 2^64 bytes (U11). -/
  finished : e.phase = .done → g.message.length < 2 ^ 64 → e.digest = murmur3 g.message g.seed
  /-- VVALID says that a value has been encoded (R29). -/
  valid : e.vvalid = g.value.isSome
  /-- The encoding is that value's. -/
  encoded : ∀ v, g.value = some v → e.encoding = varint v
  /-- With FPVALID there are a digest and a value, and the fingerprint is composed of them (R30). -/
  composed : e.fpvalid = true → e.phase = .done ∧ ∃ v, g.value = some v ∧
    (g.message.length < 2 ^ 64 → compose (varint v) (murmur3 g.message g.seed) = some e.fingerprint)

end Sys2Proof.Machine
end

