-- ==== Sys2Proof/Certificates/Slice0/Obligations.lean ====
section
/-! DEFINITION. The statements about the machine, from the spec's numbered rules. -/

open Sys2Proof Sys2Proof.Machine

/-! ## The command word -/

/-- R70 to R72: the word of every well-formed command decodes to that command, with every count. -/
def Obligations.DecodeOfEncodeIsIdentity : Prop :=
  ∀ i : Instr, i.wf = true → decode (encode i) = .ok i ∧ decodeTableWord 64 (encode i).toNat = some i

/-- R70 to R72: a word that decodes is the word of the command it decodes to, so no bit of a word is dropped. -/
def Obligations.DecodedWordIsTheCommandsWord : Prop :=
  ∀ (w : Word) (i : Instr), decode w = .ok i → i.wf = true ∧ encode i = w

/-- R72: the rows of the table, each by its match and mask, the sixteen TAIL words, and the count: 23
words are commands, all of them below 256. -/
def Obligations.WordsSelectCommandsByMatchAndMask : Prop :=
  (∀ w : Word,
    (w &&& 0xFFFFFFFFFFFFFFFF = 0x0000000000000000 ↔ decode w = .ok .nop) ∧
    (w &&& 0xFFFFFFFFFFFFFFFF = 0x0000000000000001 ↔ decode w = .ok .init) ∧
    (w &&& 0xFFFFFFFFFFFFFFFF = 0x0000000000000002 ↔ decode w = .ok .block) ∧
    (w &&& 0xFFFFFFFFFFFFFF0F = 0x0000000000000003 ↔ ∃ n, decode w = .ok (.tail n)) ∧
    (w &&& 0xFFFFFFFFFFFFFFFF = 0x0000000000000004 ↔ decode w = .ok .final) ∧
    (w &&& 0xFFFFFFFFFFFFFFFF = 0x0000000000000005 ↔ decode w = .ok .venc) ∧
    (w &&& 0xFFFFFFFFFFFFFFFF = 0x0000000000000006 ↔ decode w = .ok .compose) ∧
    (w &&& 0xFFFFFFFFFFFFFFFF = 0x000000000000000F ↔ decode w = .ok .srst)) ∧
  (∀ n : Nat, n ≤ 15 → decode (BitVec.ofNat 64 (0x03 + 16 * n)) = .ok (.tail n)) ∧
  ((List.range 256).filter fun x => (decodeTableWord 64 x).isSome).length = 23 ∧
  (∀ w : Word, 256 ≤ w.toNat → ∀ i, decode w ≠ .ok i)

/-- Words written out from the table of R72 and the examples of R172. -/
def Obligations.SampleWordsDecodeAsTabulated : Prop :=
  decode 0x00 = .ok .nop ∧ decode 0x01 = .ok .init ∧ decode 0x02 = .ok .block ∧ decode 0x03 = .ok (.tail 0) ∧
  decode 0xF3 = .ok (.tail 15) ∧ decode 0x04 = .ok .final ∧ decode 0x05 = .ok .venc ∧ decode 0x06 = .ok .compose ∧
  decode 0x0F = .ok .srst ∧ decode 0x07 = .error .reservedOp ∧ decode 0x0E = .error .reservedOp ∧
  decode 0x11 = .error .countWithoutTail ∧ decode 0x1F = .error .countWithoutTail ∧
  decode 0x100 = .error .reservedBits ∧ decode 0xFFFFFFFFFFFFFFFF = .error .reservedBits

/-- R74: an illegal word raises E_ILLEGAL_CMD and has no other effect; a word that is not illegal is a command's. -/
def Obligations.IllegalWordsRaiseIllegalCmd : Prop :=
  ∀ (w : Word) (s : State), s.engine.err = false →
    (IllegalWord w → writeCommand w s = .next (s.withEngine { s.engine with err := true, ecode := 1 })) ∧
    (¬ IllegalWord w → ∃ i : Instr, i.wf = true ∧ encode i = w ∧ writeCommand w s = exec i s)

/-- R75: what a legal write of `w` to CMD does, in full; the answer is OK in every branch. -/
def Obligations.CommandWriteFollowsExecCmd : Prop :=
  ∀ (w : Word) (s : State),
    let e := s.engine
    let fault (code : BitVec 4) : Engine := { e with err := true, ecode := code }
    let op := w.toNat % 16
    let n := w.toNat / 16 % 16
    let after : Engine :=
      if e.err = true then (if w = 0x0F then Engine.reset else e)
      else if w.toNat / 256 ≠ 0 then fault 1
      else if 0x7 ≤ op ∧ op ≤ 0xE then fault 1
      else if op ≠ 0x3 ∧ n ≠ 0 then fault 1
      else if op = 0x0 then e
      else if op = 0x1 then openMessage e
      else if op = 0x2 then (if e.phase ≠ .absorb then fault 2 else absorbBlock e)
      else if op = 0x3 then (if e.phase ≠ .absorb then fault 2 else absorbTail n e)
      else if op = 0x4 then (if e.phase ≠ .absorb ∧ e.phase ≠ .tailed then fault 2 else finalizeMessage e)
      else if op = 0x5 then encodeVin e
      else if op = 0x6 then (if e.phase ≠ .done ∨ e.vvalid = false then fault 3 else composeFingerprint e)
      else Engine.reset
    writeCommand w s = .next (s.withEngine after) ∧
    memWrite 0x00 8 w s = .next ((s.withEngine after).answer .ok)

/-! ## Steps -/

/-- A step whose next host operation writes a word that decodes to `i` is `exec i`, with the operation taken off and
answered OK (R55, R64, R75). -/
def Obligations.StepRunsTheDecodedCommand : Prop :=
  ∀ (s : State) (w : Word) (i : Instr) (rest : List HostEvent), decode w = .ok i →
    s.incoming = .memWrite 0x00 8 w :: rest →
    step s = onNext (fun t => { t with answers := t.answers ++ [.ok] }) (exec i { s with incoming := rest })

/-- R211, R212: every step is a next state; a host operation is answered exactly once, and a reset by nothing; the
events to come are delivered in order (R62). The two lists are the model's, and that a reset gives no answer is its choice
(log entries 1, 3 and 16). -/
def Obligations.EveryHostOperationIsAnsweredOnce : Prop :=
  ∀ (s : State) (ev : HostEvent) (rest : List HostEvent), s.incoming = ev :: rest →
    ∃ t, step s = .next t ∧ t.incoming = rest ∧
      match ev with
      | .reset => t.answers = s.answers
      | .memRead _ _ => ∃ a, t.answers = s.answers ++ [a] ∧ a ≠ .ok
      | .memWrite _ _ _ => t.answers = s.answers ++ [.ok] ∨ t.answers = s.answers ++ [.err]

/-- R14: with no host operation to come, nothing changes (DEDUCED, log entry 2). -/
def Obligations.EngineNeverActsOnItsOwn : Prop :=
  ∀ s : State, s.incoming = [] → step s = .next s

/-! ## The host port -/

/-- R53: the legal accesses, the order of the four tests, and that every other access changes no state. -/
def Obligations.AccessIsLegalExactlyAsListed : Prop :=
  (∀ (kind : AccessKind) (off n : Nat),
    ((∃ r, checkAccess kind off n = .ok r) ↔ LegalAccess kind off n) ∧
    (n ≠ 8 → checkAccess kind off n = .error .size) ∧
    (n = 8 → off % 8 ≠ 0 → checkAccess kind off n = .error .misaligned) ∧
    (n = 8 → off % 8 = 0 → off ∉ [0x00, 0x08, 0x10, 0x18, 0x20, 0x28, 0x30, 0x38, 0x40, 0x48, 0x50, 0x58, 0x60] →
      checkAccess kind off n = .error .noRegister) ∧
    (off = 0x00 → n = 8 → checkAccess .read off n = .error .noRight) ∧
    (off ∈ [0x08, 0x18, 0x30, 0x38, 0x48, 0x50, 0x58, 0x60] → n = 8 → checkAccess .write off n = .error .noRight)) ∧
  (∀ (off n : Nat) (s : State), ¬ LegalAccess .read off n →
    memRead off n s = .next { s with answers := s.answers ++ [.err] }) ∧
  (∀ (off n : Nat) (v : BitVec (8 * n)) (s : State), ¬ LegalAccess .write off n →
    memWrite off n v s = .next { s with answers := s.answers ++ [.err] })

/-- R175: a step answers ERR exactly under (a) to (e), whatever ERR is, and then the engine is unchanged. -/
def Obligations.AccessFaultsAnswerErrAndChangeNothing : Prop :=
  ∀ (s : State) (off n : Nat) (rest : List HostEvent),
    (s.incoming = .memRead off n :: rest → ∃ t, step s = .next t ∧ t.incoming = rest ∧
      (t.answers = s.answers ++ [.err] ↔
        n ≠ 8 ∨ off % 8 ≠ 0 ∨ off ∈ [0x68, 0x70, 0x78] ∨ 128 ≤ off ∨ off = 0x00) ∧
      (t.answers = s.answers ++ [.err] → t.engine = s.engine)) ∧
    (∀ v : BitVec (8 * n), s.incoming = .memWrite off n v :: rest → ∃ t, step s = .next t ∧ t.incoming = rest ∧
      (t.answers = s.answers ++ [.err] ↔
        n ≠ 8 ∨ off % 8 ≠ 0 ∨ off ∈ [0x68, 0x70, 0x78] ∨ 128 ≤ off ∨
          off ∈ [0x08, 0x18, 0x30, 0x38, 0x48, 0x50, 0x58, 0x60]) ∧
      (t.answers = s.answers ++ [.err] → t.engine = s.engine))

/-- R54: what each legal read answers, that it changes no state, and that reading twice gives the same value. -/
def Obligations.LegalReadAnswersTheRegister : Prop :=
  ∀ s : State,
    let e := s.engine
    let answered (v : Word) : Result := .next { s with answers := s.answers ++ [.okData v] }
    memRead 0x08 8 s = answered e.status ∧ memRead 0x10 8 s = answered (e.seed.setWidth 64) ∧
    memRead 0x18 8 s = answered e.len ∧ memRead 0x20 8 s = answered e.din0 ∧ memRead 0x28 8 s = answered e.din1 ∧
    memRead 0x30 8 s = answered e.h1 ∧ memRead 0x38 8 s = answered e.h2 ∧ memRead 0x40 8 s = answered e.vin ∧
    memRead 0x48 8 s = answered e.vout0 ∧ memRead 0x50 8 s = answered e.vout1 ∧
    memRead 0x58 8 s = answered e.fp0 ∧ memRead 0x60 8 s = answered e.fp1 ∧
    ∀ (off n : Nat), ∃ a, memRead off n s = .next { s with answers := s.answers ++ [a] } ∧
      ∀ t, memRead off n s = .next t → memRead off n t = .next { t with answers := t.answers ++ [a] }

/-- R32: the fields of STATUS, each at its place, and the reserved bits, which read as 0. -/
def Obligations.StatusShowsEachFieldAtItsPlace : Prop :=
  ∀ e : Engine,
    e.status.extractLsb' 0 2 = (match e.phase with | .idle => 0 | .absorb => 1 | .tailed => 2 | .done => 3) ∧
    e.status.getLsbD 2 = e.vvalid ∧ e.status.getLsbD 3 = e.fpvalid ∧ e.status.getLsbD 4 = e.err ∧
    e.status.extractLsb' 5 3 = 0 ∧ e.status.extractLsb' 8 4 = e.ecode ∧ e.status.extractLsb' 12 4 = e.vlen ∧
    e.status.extractLsb' 16 48 = 0

/-- R55: a legal write stores to its register and to nothing else, in every phase and while ERR = 1; a write to CMD
executes the word. -/
def Obligations.LegalWriteStoresOnlyItsRegister : Prop :=
  ∀ (s : State) (v : Word),
    let stored (e : Engine) : Result := .next { s with engine := e, answers := s.answers ++ [.ok] }
    memWrite 0x10 8 v s = stored { s.engine with seed := v.extractLsb' 0 32 } ∧
    memWrite 0x20 8 v s = stored { s.engine with din0 := v } ∧
    memWrite 0x28 8 v s = stored { s.engine with din1 := v } ∧
    memWrite 0x40 8 v s = stored { s.engine with vin := v } ∧
    (∃ t, writeCommand v s = .next t ∧ memWrite 0x00 8 v s = .next { t with answers := t.answers ++ [.ok] })

/-- R54, R55, R60: a read of a written register gives what it stored, and every other register reads as before. -/
def Obligations.ReadAfterWriteAtThePort : Prop :=
  ∀ (r q : Reg) (v : Word) (e : Engine), r ∈ [Reg.seed, .din0, .din1, .vin] →
    (q ≠ r → readReg q (writeReg r v e) = readReg q e) ∧
    (r = .seed → readReg r (writeReg r v e) = some ((v.extractLsb' 0 32).setWidth 64)) ∧
    (r ≠ .seed → readReg r (writeReg r v e) = some v) ∧
    writeReg r v (writeReg r v e) = writeReg r v e

/-- R212: the twelve readable registers together expose every element of the engine. -/
def Obligations.ReadableRegistersExposeTheEngine : Prop :=
  ∀ e f : Engine,
    (∀ off ∈ [0x08, 0x10, 0x18, 0x20, 0x28, 0x30, 0x38, 0x40, 0x48, 0x50, 0x58, 0x60],
      readAnswer off 8 e = readAnswer off 8 f) → e = f

/-- D3, R5, R50: BASE is a multiple of 8, so an address is aligned exactly when its offset is, and the 128 addresses
from BASE on are the offsets 0 to 127. -/
def Obligations.BusAddressesAreTheOffsets : Prop :=
  ∀ off : Nat, busAddress off % 8 = off % 8 ∧ (busOffset? (busAddress off) = some off ↔ off < 128)

/-! ## The commands -/

/-- R150: NOP leaves every state; its word is 0x00, and the words 0x10 to 0xF0 are illegal. -/
def Obligations.NopLeavesEveryState : Prop :=
  (∀ s : State, exec .nop s = .next s) ∧ encode .nop = 0x00 ∧
  (∀ n : Nat, 1 ≤ n → n ≤ 15 → decode (BitVec.ofNat 64 (16 * n)) = .error .countWithoutTail)

/-- R99: INIT opens a message in every phase; two in a row equal one. -/
def Obligations.InitOpensAMessage : Prop :=
  encode .init = 0x01 ∧
  ∀ s : State, s.engine.err = false →
    let opened : Engine :=
      { s.engine with
        h1 := s.engine.seed.setWidth 64, h2 := s.engine.seed.setWidth 64, len := 0, phase := .absorb,
        fpvalid := false }
    exec .init s = .next (s.withEngine opened) ∧
    exec .init (s.withEngine opened) = .next (s.withEngine opened)

/-- R100: BLOCK absorbs DIN0, DIN1 in ABSORB and faults elsewhere; zero data changes the accumulators; the example. -/
def Obligations.BlockAbsorbsSixteenBytes : Prop :=
  encode .block = 0x02 ∧
  (∀ s : State, s.engine.err = false → s.engine.phase = .absorb →
    exec .block s = .next (s.withEngine { s.engine with
      h1 := (blockMix s.engine.h1 s.engine.h2 s.engine.din0 s.engine.din1).1,
      h2 := (blockMix s.engine.h1 s.engine.h2 s.engine.din0 s.engine.din1).2,
      len := BitVec.ofNat 64 (s.engine.len.toNat + 16) })) ∧
  (∀ s : State, s.engine.err = false → s.engine.phase ≠ .absorb →
    exec .block s = .next (s.withEngine { s.engine with err := true, ecode := 2 })) ∧
  blockMix 0 0 0 0 ≠ (0, 0) ∧
  blockMix 0 0 0x0706050403020100 0x0f0e0d0c0b0a0908 = (0xdcac505ea5c458df, 0x72927c4be244042d)

/-- R101: TAIL n absorbs the first n bytes carried by DIN0, DIN1 in ABSORB and faults elsewhere; TAIL 0 moves only the
phase; for `n <= 8` DIN1, and in every case the bytes from index n on, do not matter; there is no TAIL 16; the example. -/
def Obligations.TailAbsorbsTheFirstBytes : Prop :=
  (∀ w : Word, decode w ≠ .ok (.tail 16)) ∧
  (∀ d1 : Word, tailWords 0xAAAAAAAAAAAAAA01 d1 1 = (1, 0)) ∧ tailMix 0 0 1 0 = (0x34e09d0b6bdefe38, 0) ∧
  ∀ n : Nat, n ≤ 15 →
    encode (.tail n) = BitVec.ofNat 64 (0x03 + 16 * n) ∧
    (∀ s : State, s.engine.err = false → s.engine.phase = .absorb →
      let k := tailWords s.engine.din0 s.engine.din1 n
      exec (.tail n) s = .next (s.withEngine { s.engine with
        h1 := (tailMix s.engine.h1 s.engine.h2 k.1 k.2).1,
        h2 := (tailMix s.engine.h1 s.engine.h2 k.1 k.2).2,
        len := BitVec.ofNat 64 (s.engine.len.toNat + n),
        phase := .tailed }) ∧
      (n = 0 → exec (.tail n) s = .next (s.withEngine { s.engine with phase := .tailed }))) ∧
    (∀ s : State, s.engine.err = false → s.engine.phase ≠ .absorb →
      exec (.tail n) s = .next (s.withEngine { s.engine with err := true, ecode := 2 })) ∧
    (∀ d0 d1 d0' d1' : Word, (bytesOfPair d0 d1).take n = (bytesOfPair d0' d1').take n →
      tailWords d0 d1 n = tailWords d0' d1' n) ∧
    (∀ d0 d1 d1' : Word, n ≤ 8 → tailWords d0 d1 n = tailWords d0 d1' n)

/-- R102: FINAL finalizes in ABSORB and TAILED and faults elsewhere; from ABSORB it equals TAIL 0 and then FINAL; INIT
and then FINAL with seed 0 gives the digest of the empty message, sixteen zero bytes; FPVALID is 0 in these phases; the
example. -/
def Obligations.FinalFinalizesTheMessage : Prop :=
  encode .final = 0x04 ∧
  (∀ s : State, s.engine.err = false → (s.engine.phase = .absorb ∨ s.engine.phase = .tailed) →
    exec .final s = .next (s.withEngine { s.engine with
      h1 := (finalize s.engine.h1 s.engine.h2 s.engine.len).1,
      h2 := (finalize s.engine.h1 s.engine.h2 s.engine.len).2,
      phase := .done })) ∧
  (∀ s : State, s.engine.err = false → (s.engine.phase = .idle ∨ s.engine.phase = .done) →
    exec .final s = .next (s.withEngine { s.engine with err := true, ecode := 2 })) ∧
  (∀ s : State, s.engine.err = false → s.engine.phase = .absorb →
    ∃ t, exec (.tail 0) s = .next t ∧ exec .final t = exec .final s) ∧
  (∀ s : State, s.engine.Inv → (s.engine.phase = .absorb ∨ s.engine.phase = .tailed) → s.engine.fpvalid = false) ∧
  (∀ s : State, s.engine.err = false → s.engine.seed = 0 →
    ∃ t u, exec .init s = .next t ∧ exec .final t = .next u ∧ u.engine.h1 = 0 ∧ u.engine.h2 = 0 ∧
      bytesOfPair u.engine.h1 u.engine.h2 = List.replicate 16 0) ∧
  finalize 0 0 1 = (0x4610abe56eff5cb5, 0x51622daa78f83583) ∧
  bytesOfPair 0x4610abe56eff5cb5 0x51622daa78f83583 =
    [0xb5, 0x5c, 0xff, 0x6e, 0xe5, 0xab, 0x10, 0x46, 0x83, 0x35, 0xf8, 0x78, 0xaa, 0x2d, 0x62, 0x51]

/-- R132: VENC stores the padded encoding of VIN, its length, and sets VVALID, in every phase; byte i of the output is
the 7-bit group of VIN, with the top bit set on all but the last; the examples. -/
def Obligations.VencEncodesVin : Prop :=
  encode .venc = 0x05 ∧
  (∀ s : State, s.engine.err = false →
    let v := s.engine.vin
    let p := varint v ++ List.replicate (16 - (varint v).length) (0 : Byte)
    exec .venc s = .next (s.withEngine { s.engine with
      vout0 := le64 (p.take 8), vout1 := le64 (p.drop 8), vlen := BitVec.ofNat 4 (varint v).length,
      vvalid := true, fpvalid := false })) ∧
  (∀ e : Engine,
    let f := encodeVin e
    1 ≤ f.vlen.toNat ∧ f.vlen.toNat ≤ 10 ∧
    ∀ i : Nat, i < 16 →
      let g : Nat := e.vin.toNat / 2 ^ (7 * i) % 128
      (bytesOfPair f.vout0 f.vout1)[i]? = some
        (if i + 1 < f.vlen.toNat then BitVec.ofNat 8 (g + 128)
         else if i + 1 = f.vlen.toNat then BitVec.ofNat 8 g else 0)) ∧
  (∀ e : Engine, e.vin = 0 → (encodeVin e).vlen = 1 ∧ (encodeVin e).vout0 = 0) ∧
  (∀ e : Engine, e.vin = 0xFFFFFFFFFFFFFFFF →
    (encodeVin e).vlen = 10 ∧ (encodeVin e).vout0 = 0xFFFFFFFFFFFFFFFF ∧ (encodeVin e).vout1 = 0x1FF) ∧
  (∀ e : Engine, e.vin = 16384 →
    (encodeVin e).vlen = 3 ∧ (encodeVin e).vout0 = 0x18080 ∧ (encodeVin e).vout1 = 0)

/-- R141: COMPOSE stores the composition of the encoding and the digest and sets FPVALID, or faults when not ready;
repeating it gives the same state; a VENC after it clears FPVALID and leaves FP; the form with masks, in a state that
meets the invariant (the OR relies on VOUT being zero above VLEN, R41); the example. In every state in which it may run
it completes, whatever the encoding's bytes are; of the lengths 0 and 11 to 15, which no run reaches, it says nothing (log entry 9).
-/
def Obligations.ComposeOverlaysTheEncoding : Prop :=
  encode .compose = 0x06 ∧
  (∀ s : State, s.engine.err = false → s.engine.phase = .done → s.engine.vvalid = true →
    1 ≤ s.engine.vlen.toNat → s.engine.vlen.toNat ≤ 10 →
    ∃ f : List Byte, compose s.engine.encoding s.engine.digest = some f ∧ f.length = 16 ∧
      let after := s.withEngine
        { s.engine with fp0 := le64 (f.take 8), fp1 := le64 (f.drop 8), fpvalid := true }
      exec .compose s = .next after ∧ exec .compose after = .next after) ∧
  (∀ s : State, s.engine.err = false → (s.engine.phase ≠ .done ∨ s.engine.vvalid = false) →
    exec .compose s = .next (s.withEngine { s.engine with err := true, ecode := 3 })) ∧
  (∀ s : State, s.engine.err = false → ∃ t, exec .venc s = .next t ∧
    t.engine.fpvalid = false ∧ t.engine.fp0 = s.engine.fp0 ∧ t.engine.fp1 = s.engine.fp1) ∧
  (∀ e : Engine, e.Inv → e.vvalid = true →
    let m := e.vlen.toNat
    let f := composeFingerprint e
    (m ≤ 8 → f.fp0 = (e.h1 &&& ~~~ bytemask m) ||| e.vout0 ∧ f.fp1 = e.h2) ∧
    (m = 8 → f.fp0 = e.vout0) ∧
    (m = 9 → f.fp0 = e.vout0 ∧ f.fp1 = (e.h2 &&& 0xFFFFFFFFFFFFFF00) ||| e.vout1) ∧
    (m = 10 → f.fp0 = e.vout0 ∧ f.fp1 = (e.h2 &&& 0xFFFFFFFFFFFF0000) ||| e.vout1)) ∧
  (∀ e : Engine, e.h1 = 0x4610abe56eff5cb5 → e.h2 = 0x51622daa78f83583 → e.vout0 = 0x01 → e.vlen = 1 →
    (composeFingerprint e).fp0 = 0x4610abe56eff5c01 ∧ (composeFingerprint e).fp1 = 0x51622daa78f83583)

/-- R141, R142, R41 (b): in every state that meets the invariant, COMPOSE with PHASE = DONE and VVALID = 1 has an encoding
of 1 to 10 bytes before it and completes; byte i of the fingerprint it leaves is byte i of VOUT0, VOUT1 below VLEN and
byte i of the digest from there on, the last six of the digest among them; nothing else changes, and the invariant holds
again. -/
def Obligations.ComposeCompletesWheneverReady : Prop :=
  ∀ s : State, s.engine.Inv → s.engine.err = false → s.engine.phase = .done → s.engine.vvalid = true →
    1 ≤ s.engine.vlen.toNat ∧ s.engine.vlen.toNat ≤ 10 ∧
    ∃ t : State, exec .compose s = .next t ∧ t.engine.Inv ∧ t.engine.fpvalid = true ∧
      t = s.withEngine { s.engine with fp0 := t.engine.fp0, fp1 := t.engine.fp1, fpvalid := true } ∧
      t.engine.fingerprint.drop 10 = s.engine.digest.drop 10 ∧
      ∀ i, i < 16 → t.engine.fingerprint[i]? =
        if i < s.engine.vlen.toNat then (bytesOfPair s.engine.vout0 s.engine.vout1)[i]? else s.engine.digest[i]?

/-- R151: SRST puts every element to its reset value in every state, also while ERR = 1; no other command clears ERR;
0x1F is not SRST. -/
def Obligations.SrstResetsTheEngine : Prop :=
  encode .srst = 0x0F ∧
  (∀ s : State, exec .srst s = .next (s.withEngine
    { h1 := 0, h2 := 0, len := 0, seed := 0, din0 := 0, din1 := 0, vin := 0, vout0 := 0, vout1 := 0, vlen := 0,
      fp0 := 0, fp1 := 0, phase := .idle, vvalid := false, fpvalid := false, err := false, ecode := 0 })) ∧
  (∀ s : State,
    (s.engine.err = false → writeCommand 0x1F s = .next (s.withEngine { s.engine with err := true, ecode := 1 })) ∧
    (s.engine.err = true → writeCommand 0x1F s = .next s)) ∧
  (∀ (i : Instr) (s t : State), s.engine.err = true → exec i s = .next t → t.engine.err = false → i = .srst)

/-- R76 to R78: for ERR = 0 every command answers a next state, whose phase is the one tabulated, or in which exactly
the tabulated fault is recorded; the command is legal exactly when the table gives a phase. -/
def Obligations.PhaseFollowsTheTable : Prop :=
  ∀ (i : Instr) (s : State), i.wf = true → s.engine.err = false →
    ∃ t, exec i s = .next t ∧
      (match nextPhase i s.engine.phase s.engine.vvalid with
        | .ok p => t.engine.phase = p ∧ t.engine.err = false ∧ legalInPhase i s.engine
        | .error .illegalCmd => False
        | .error .sequence => t = s.withEngine { s.engine with err := true, ecode := 2 } ∧ ¬ legalInPhase i s.engine
        | .error .notReady => t = s.withEngine { s.engine with err := true, ecode := 3 } ∧ ¬ legalInPhase i s.engine)

/-! ## Whole-machine rules -/

/-- R178: while ERR = 1 a write to CMD other than exactly 0x0F has no effect and is answered OK; reads, and writes to
SEED, DIN0, DIN1 and VIN, work as usual. -/
def Obligations.StickyFaultIgnoresEveryOtherWord : Prop :=
  ∀ (s : State) (w : Word) (rest : List HostEvent), s.engine.err = true →
    (s.incoming = .memWrite 0x00 8 w :: rest → w ≠ 0x0F →
      step s = .next { s with incoming := rest, answers := s.answers ++ [.ok] }) ∧
    (∀ r ∈ [Reg.seed, .din0, .din1, .vin], s.incoming = wr r w :: rest →
      step s = .next { engine := writeReg r w s.engine, incoming := rest, answers := s.answers ++ [.ok] }) ∧
    (∀ r : Reg, r ≠ .cmd → s.incoming = rd r :: rest → ∃ v, readReg r s.engine = some v ∧
      step s = .next { s with incoming := rest, answers := s.answers ++ [.okData v] })

/-- R177, R179: with ERR = 1 a step keeps every element but SEED, DIN0, DIN1 and VIN, ERR and the code of the first
fault among them, or is a reset or a write of exactly 0x0F to CMD, and then the whole engine is in the reset state. -/
def Obligations.OnlySrstOrResetClearsErr : Prop :=
  ∀ s t : State, s.engine.err = true → step s = .next t →
    (t.engine.err = true ∧ ∃ (seed : BitVec 32) (din0 din1 vin : Word),
      t.engine = { s.engine with seed := seed, din0 := din0, din1 := din1, vin := vin }) ∨
    (t.engine = Engine.reset ∧ (s.incoming.head? = some .reset ∨ s.incoming.head? = some (.memWrite 0x00 8 0x0F)))

/-- R20, the column "Written by": an element changes in a step only under the commands, the host writes or the reset
that the table names for it; ERR and ECODE also under a command fault, which is a word that is illegal (R74) or a
command that is not legal in the phase (R78). -/
def Obligations.EachElementIsWrittenOnlyAsTabulated : Prop :=
  ∀ s t : State, step s = .next t →
    let e := s.engine
    let f := t.engine
    let ran (l : List Instr) : Prop := ∃ i ∈ l, s.incoming.head? = some (issue i)
    let tails : List Instr := (List.range 16).map Instr.tail
    let wrote (r : Reg) : Prop := ∃ v, s.incoming.head? = some (wr r v)
    let reset : Prop := s.incoming.head? = some .reset
    (f.h1 ≠ e.h1 → reset ∨ ran (.init :: .block :: .final :: .srst :: tails)) ∧
    (f.h2 ≠ e.h2 → reset ∨ ran (.init :: .block :: .final :: .srst :: tails)) ∧
    (f.len ≠ e.len → reset ∨ ran (.init :: .block :: .srst :: tails)) ∧
    (f.seed ≠ e.seed → reset ∨ ran [.srst] ∨ wrote .seed) ∧
    (f.din0 ≠ e.din0 → reset ∨ ran [.srst] ∨ wrote .din0) ∧
    (f.din1 ≠ e.din1 → reset ∨ ran [.srst] ∨ wrote .din1) ∧
    (f.vin ≠ e.vin → reset ∨ ran [.srst] ∨ wrote .vin) ∧
    (f.vout0 ≠ e.vout0 ∨ f.vout1 ≠ e.vout1 ∨ f.vlen ≠ e.vlen ∨ f.vvalid ≠ e.vvalid → reset ∨ ran [.venc, .srst]) ∧
    (f.fp0 ≠ e.fp0 ∨ f.fp1 ≠ e.fp1 → reset ∨ ran [.compose, .srst]) ∧
    (f.phase ≠ e.phase → reset ∨ ran (.init :: .final :: .srst :: tails)) ∧
    (f.fpvalid ≠ e.fpvalid → reset ∨ ran [.compose, .init, .venc, .srst]) ∧
    (f.err ≠ e.err ∨ f.ecode ≠ e.ecode → reset ∨ ran [.srst] ∨
      ∃ w, s.incoming.head? = some (wr .cmd w) ∧ e.err = false ∧ f.err = true ∧
        (IllegalWord w ∨ ∃ i : Instr, i.wf = true ∧ encode i = w ∧ ¬ legalInPhase i e))

/-- R182: whether a command faults, and with which code, depends on its form, on PHASE, VVALID and ERR alone: no value
of SEED, DIN0, DIN1, VIN, of the count or of the accumulated state matters. -/
def Obligations.DataNeverFaults : Prop :=
  ∀ (w : Word) (s s' : State), s.engine.phase = s'.engine.phase → s.engine.vvalid = s'.engine.vvalid →
    s.engine.err = s'.engine.err → s.engine.ecode = s'.engine.ecode →
    ∃ t t', writeCommand w s = .next t ∧ writeCommand w s' = .next t' ∧
      t.engine.err = t'.engine.err ∧ t.engine.ecode = t'.engine.ecode ∧ t.engine.phase = t'.engine.phase

/-- R203, R207, R208: SEED is sampled by INIT alone, VIN by VENC alone, DIN0 and DIN1 by BLOCK and TAIL alone: under
every other command another value of the register changes nothing else. SRST overwrites them all. -/
def Obligations.InputRegistersAreSampledOnlyByTheirCommand : Prop :=
  ∀ (i : Instr) (s : State) (x : BitVec 32) (y : Word), i ≠ .srst →
    (i ≠ .init → exec i (s.withEngine { s.engine with seed := x }) =
      onNext (fun t => t.withEngine { t.engine with seed := x }) (exec i s)) ∧
    (i ≠ .venc → exec i (s.withEngine { s.engine with vin := y }) =
      onNext (fun t => t.withEngine { t.engine with vin := y }) (exec i s)) ∧
    (i ≠ .block → (∀ n, i ≠ .tail n) →
      exec i (s.withEngine { s.engine with din0 := y }) =
        onNext (fun t => t.withEngine { t.engine with din0 := y }) (exec i s) ∧
      exec i (s.withEngine { s.engine with din1 := y }) =
        onNext (fun t => t.withEngine { t.engine with din1 := y }) (exec i s))

/-- R105, R143: VENC may come anywhere between the hash commands: where a hash command is legal, running it before or
after VENC gives the same state. -/
def Obligations.VencCommutesWithTheHashCommands : Prop :=
  ∀ (i : Instr) (s : State), i ∈ [Instr.nop, .init, .block, .final] ∨ (∃ n, i = .tail n) → s.engine.err = false →
    legalInPhase i s.engine →
    ∃ t u v, exec .venc s = .next t ∧ exec i t = .next v ∧ exec i s = .next u ∧ exec .venc u = .next v

/-- R201: the engine right after reset, and after a step that delivers a reset to any state: every element is zero, and
so every readable register, STATUS among them, reads 0. -/
def Obligations.EveryRegisterReadsZeroAfterReset : Prop :=
  ∀ e : Engine,
    (e = State.reset.engine ∨
      ∃ (s t : State) (rest : List HostEvent), s.incoming = .reset :: rest ∧ step s = .next t ∧ e = t.engine) →
    e = { h1 := 0, h2 := 0, len := 0, seed := 0, din0 := 0, din1 := 0, vin := 0, vout0 := 0, vout1 := 0, vlen := 0,
          fp0 := 0, fp1 := 0, phase := .idle, vvalid := false, fpvalid := false, err := false, ecode := 0 } ∧
    e.status = 0 ∧ ∀ r : Reg, r ≠ .cmd → readReg r e = some 0

/-- R200, R201, R151: reset is complete in one step, whatever the state was: every element is zero and the next event is
taken off; the state after SRST is the same engine. That a reset gives no answer and leaves the answers as they were is
the model's choice (DESIGN CHOICE, log entry 16). -/
def Obligations.ResetClearsEveryElement : Prop :=
  (∀ (s : State) (rest : List HostEvent), s.incoming = .reset :: rest →
    step s = .next (State.mk
      { h1 := 0, h2 := 0, len := 0, seed := 0, din0 := 0, din1 := 0, vin := 0, vout0 := 0, vout1 := 0, vlen := 0,
        fp0 := 0, fp1 := 0, phase := .idle, vvalid := false, fpvalid := false, err := false, ecode := 0 }
      rest s.answers)) ∧
  State.reset.engine.status = 0 ∧ exec .srst State.reset = .next State.reset

/-! ## Invariants -/

/-- R41 holds after reset. -/
def Obligations.ResetMeetsTheInvariants : Prop := State.reset.engine.Inv

/-- R41 (a) to (f): every step keeps the invariants of the state. -/
def Obligations.EveryStepKeepsTheInvariants : Prop :=
  ∀ s t : State, s.engine.Inv → step s = .next t → t.engine.Inv

/-- After reset the engine holds no hash, encoding or fingerprint: PHASE is IDLE, VVALID and FPVALID are 0, and its
registers are those of an engine that has been given nothing, neither a byte nor a value. -/
def Obligations.ResetEngineIsMeaningful : Prop :=
  State.reset.engine.phase = .idle ∧ State.reset.engine.vvalid = false ∧ State.reset.engine.fpvalid = false ∧
  State.reset.engine.Meaningful .fresh ∧
  ∀ g : History, State.reset.engine.Meaningful g → g.message = [] ∧ g.value = none

/-- R98 to R102, R132, R141, R173: for every message, seed and value, a step takes an engine that computed from them to
one that computes from what the step adds to them: BLOCK takes the message to itself and the sixteen bytes of DIN0, DIN1,
TAIL n to itself and the first n of those, INIT to the empty one with the seed in SEED, VENC takes the value to VIN,
SRST and reset forget all, and every other step, FINAL among them, keeps them. So in DONE the digest is the hash of
exactly the bytes absorbed since INIT, with the seed INIT sampled. -/
def Obligations.EveryStepKeepsTheEngineMeaningful : Prop :=
  ∀ (g : History) (s t : State) (ev : HostEvent) (rest : List HostEvent), s.engine.Meaningful g →
    s.incoming = ev :: rest → step s = .next t → t.engine.Meaningful (g.after ev s.engine)

/-! ## The hash unit's functions -/

/-- R9: rotation to the left, by bits and by numbers. -/
def Obligations.RotationMovesEveryBitLeft : Prop :=
  ∀ (x : Word) (r : Nat), 0 < r → r < 64 →
    (∀ i, i < 64 → (rotl64 x r).getLsbD ((i + r) % 64) = x.getLsbD i) ∧
    (rotl64 x r).toNat = (x.toNat * 2 ^ r % 2 ^ 64) ||| (x.toNat / 2 ^ (64 - r))

/-- R91, R92: the two mixing functions in whole numbers, their zeros and their examples. -/
def Obligations.MixingInWholeNumbers : Prop :=
  (∀ k : Word,
    (mixK1 k).toNat =
      (let p := k.toNat * 0x87c37b91114253d5 % 2 ^ 64
       ((p * 2 ^ 31 % 2 ^ 64) ||| (p / 2 ^ 33)) * 0x4cf5ad432745937f % 2 ^ 64) ∧
    (mixK2 k).toNat =
      (let p := k.toNat * 0x4cf5ad432745937f % 2 ^ 64
       ((p * 2 ^ 33 % 2 ^ 64) ||| (p / 2 ^ 31)) * 0x87c37b91114253d5 % 2 ^ 64)) ∧
  mixK1 0 = 0 ∧ mixK2 0 = 0 ∧ mixK1 1 = 0x34e09d0b6bdefe38 ∧ mixK2 1 = 0x4e26f5539bb7c37e

/-- R93: the four lines of the block step in whole numbers; the third and fourth use the new h1; the example. -/
def Obligations.BlockMixInWholeNumbers : Prop :=
  (∀ h1 h2 k1 k2 : Word,
    let rot (x r : Nat) : Nat := (x * 2 ^ r % 2 ^ 64) ||| (x / 2 ^ (64 - r))
    let new1 : Nat := ((rot (h1.toNat ^^^ (mixK1 k1).toNat) 27 + h2.toNat) * 5 + 0x52dce729) % 2 ^ 64
    let new2 : Nat := ((rot (h2.toNat ^^^ (mixK2 k2).toNat) 31 + new1) * 5 + 0x38495ab5) % 2 ^ 64
    (blockMix h1 h2 k1 k2).1.toNat = new1 ∧ (blockMix h1 h2 k1 k2).2.toNat = new2) ∧
  blockMix 0 0 0 0 = (0x0000000052dce729, 0x00000001d699de82)

/-- R97: finalization in whole numbers, the additions in sequence; the examples. -/
def Obligations.FinalizeInWholeNumbers : Prop :=
  (∀ h1 h2 len : Word,
    let q1 := (h1 ^^^ len) + (h2 ^^^ len)
    let q2 := (h2 ^^^ len) + q1
    let s1 : Nat := ((fmix64 q1).toNat + (fmix64 q2).toNat) % 2 ^ 64
    (finalize h1 h2 len).1.toNat = s1 ∧
    (finalize h1 h2 len).2.toNat = ((fmix64 q2).toNat + s1) % 2 ^ 64) ∧
  finalize 0 0 1 = (0x4610abe56eff5cb5, 0x51622daa78f83583) ∧ finalize 0 0 0 = (0, 0)

/-- R96: the five steps of Fmix64 in whole numbers, its zero and its example, and that it is a bijection. -/
def Obligations.FmixIsTheFiveStepBijection : Prop :=
  (∀ x : Word,
    let xs (y : Nat) : Nat := y ^^^ (y / 2 ^ 33)
    (fmix64 x).toNat = xs (xs (xs x.toNat * 0xff51afd7ed558ccd % 2 ^ 64) * 0xc4ceb9fe1a85ec53 % 2 ^ 64)) ∧
  fmix64 0 = 0 ∧ fmix64 1 = 0xb456bcfc34c2cb2c ∧ Function.Bijective fmix64

/-- R94: the words of a tail are DIN0 and DIN1 masked to the bytes below n, which are the little-endian words of the
first n bytes that DIN0, DIN1 carry. -/
def Obligations.TailWordsAreTheTailBytes : Prop :=
  ∀ (d0 d1 : Word) (n : Nat), n ≤ 15 →
    let t := (bytesOfPair d0 d1).take n
    tailWords d0 d1 n = (le64 (t.take 8), le64 (t.drop 8)) ∧
    (tailWords d0 d1 n).1.toNat = d0.toNat % 2 ^ (8 * min n 8) ∧
    (tailWords d0 d1 n).2.toNat = d1.toNat % 2 ^ (8 * (n - 8)) ∧
    (n = 0 → tailWords d0 d1 n = (0, 0)) ∧
    (n ≤ 8 → (tailWords d0 d1 n).2 = 0) ∧ (8 ≤ n → (tailWords d0 d1 n).1 = d0)

/-- R103: mixing each half of a tail only when it is not empty gives the same accumulators. -/
def Obligations.ConditionalTailAgrees : Prop :=
  ∀ (h1 h2 d0 d1 : Word) (n : Nat),
    let k := tailWords d0 d1 n
    tailMix h1 h2 k.1 k.2 =
      (if 1 ≤ n then h1 ^^^ mixK1 k.1 else h1, if 9 ≤ n then h2 ^^^ mixK2 k.2 else h2)

/-- R11, R56: byte i of a register is its bits 8i+7:8i, the register value is le64 of its eight bytes, and le64 and
bytes_le are inverse to each other. -/
def Obligations.RegistersAreLittleEndian : Prop :=
  (∀ v : Word, (bytesLe v 8).length = 8 ∧ le64 (bytesLe v 8) = v ∧
    ∀ i, i < 8 → (bytesLe v 8)[i]? = some (BitVec.ofNat 8 (v.toNat / 2 ^ (8 * i)))) ∧
  (∀ b : List Byte, b.length = 8 → bytesLe (le64 b) 8 = b) ∧
  (∀ b : List Byte, b.length ≤ 8 →
    (le64 b).toNat = ((List.range b.length).map fun i => (b.getD i 0).toNat * 2 ^ (8 * i)).sum)

/-- R106 (a) to (c): the digest of the empty message with seed 0; a message of n zero bytes, n at most 15; and that the
finalization depends on the accumulators through their exclusive OR with the length alone. -/
def Obligations.ReferenceHashFacts : Prop :=
  murmur3 [] 0 = List.replicate 16 0 ∧
  (∀ n : Nat, n ≤ 15 → murmurWords (List.replicate n 0) 0 = finalize 0 0 (BitVec.ofNat 64 n)) ∧
  (∀ h1 h2 len h1' h2' len' : Word, h1 ^^^ len = h1' ^^^ len' → h2 ^^^ len = h2' ^^^ len' →
    finalize h1 h2 len = finalize h1' h2' len')

/-! ## The encoder and the composition -/

/-- R130: the encoder's loop, for every value: as long as the value is at least 128 the low 7 bits are emitted with
the top bit set, then the final 7 bits; only the last byte has its top bit clear. -/
def Obligations.VarintRunsItsLoop : Prop :=
  (∀ v : Word, 128 ≤ v.toNat → varint v = BitVec.ofNat 8 (v.toNat % 128 + 128) :: varint (v >>> 7)) ∧
  (∀ v : Word, v.toNat < 128 → varint v = [BitVec.ofNat 8 v.toNat]) ∧
  (∀ (v : Word) (i : Nat), i < (varint v).length →
    (((varint v).getD i 0).getLsbD 7 = true ↔ i + 1 < (varint v).length)) ∧
  (∀ v : Word, (varint v).getLastD 0 = 0 → v = 0)

/-- R131: the length of the encoding, by ranges. -/
def Obligations.VarintLengthByRange : Prop :=
  ∀ v : Word, 1 ≤ (varint v).length ∧ (varint v).length ≤ 10 ∧
    ∀ k, 1 ≤ k → k ≤ 10 →
      ((varint v).length = k ↔ (k = 1 ∨ 2 ^ (7 * (k - 1)) ≤ v.toNat) ∧ v.toNat < 2 ^ (7 * k))

/-- R133: the encoding decodes to its value, and no encoding begins with another value's. -/
def Obligations.VarintDecodesAndIsPrefixFree : Prop :=
  (∀ v : Word, v.toNat =
    ((List.range (varint v).length).map fun i => ((varint v).getD i 0).toNat % 128 * 2 ^ (7 * i)).sum) ∧
  (∀ v w : Word, varint v <+: varint w → v = w)

/-- R140: the bytes of a composition; it is 16 bytes long, and the last six of the digest survive. -/
def Obligations.ComposeReplacesTheLeadingBytes : Prop :=
  ∀ v d : List Byte, 1 ≤ v.length → v.length ≤ 10 → d.length = 16 →
    ∃ f, compose v d = some f ∧ f.length = 16 ∧ f.drop 10 = d.drop 10 ∧
      ∀ i, i < 16 → f[i]? = if i < v.length then v[i]? else d[i]?

/-! ## What a sequence of host operations computes -/

/-- R104: from any state with ERR = 0, the host operations of HASH end in DONE with ERR = 0, LEN the length, and the
digest of the reference function; when the length is a multiple of 16 the tail may be left out. -/
def Obligations.HashSequenceComputesTheReferenceHash : Prop :=
  ∀ (msg : List Byte) (seed : BitVec 32) (s : State), msg.length < 2 ^ 64 → s.engine.err = false →
    (∃ t, runAll (hashOps seed msg) s = .next t ∧ t.engine.err = false ∧ t.engine.phase = .done ∧
      t.engine.len.toNat = msg.length ∧ t.engine.digest = murmur3 msg seed) ∧
    (msg.length % 16 = 0 →
      ∃ t, runAll ([wr .seed (zextSeed seed), issue .init] ++ absorbBlocks msg ++ [issue .final]) s = .next t ∧
        t.engine.err = false ∧ t.engine.phase = .done ∧ t.engine.len.toNat = msg.length ∧
        t.engine.digest = murmur3 msg seed)

/-- R143: from any state with ERR = 0, the host operations of the fingerprint end with FPVALID = 1 and ERR = 0 and
leave the fingerprint of the reference function in FP0, FP1. -/
def Obligations.FingerprintSequenceComputesTheFingerprint : Prop :=
  ∀ (b : List Byte) (s : State), b.length < 2 ^ 64 → s.engine.err = false →
    ∃ t, runAll (fingerprintOps b) s = .next t ∧ t.engine.FingerprintReady ∧
      fingerprintOf b = some t.engine.fingerprint

/-- R144 (1) to (3): a fingerprint is 16 bytes, the encoding of the input's length and then the digest's bytes; that
of the empty input is sixteen zero bytes. For an input of 2^64 bytes or more this is the model's choice (log entry 17).
-/
def Obligations.FingerprintIsPrefixAndDigest : Prop :=
  (∀ b : List Byte, ∃ f, fingerprintOf b = some f ∧ f.length = 16 ∧
    (let v := varint (BitVec.ofNat 64 b.length)
     f.take v.length = v ∧ f.drop v.length = (murmur3 (sample b) 0).drop v.length)) ∧
  fingerprintOf [] = some (List.replicate 16 0)

/-- R144 (5): inputs of different lengths have different fingerprints. -/
def Obligations.FingerprintsOfDifferentLengthsDiffer : Prop :=
  ∀ b b' : List Byte, b.length < 2 ^ 64 → b'.length < 2 ^ 64 → b.length ≠ b'.length → fingerprintOf b ≠ fingerprintOf b'

/-- R144 (6): the fingerprints of two inputs of equal length agree exactly when their digests agree on the bytes from the
length of the encoding on. For inputs of 2^64 bytes or more this is the model's choice (log entry 17). -/
def Obligations.EqualLengthFingerprintsAgreeOnTheKeptBytes : Prop :=
  ∀ b b' : List Byte, b.length = b'.length →
    (fingerprintOf b = fingerprintOf b' ↔
      ∀ i, (varint (BitVec.ofNat 64 b.length)).length ≤ i → i < 16 →
        (murmur3 (sample b) 0)[i]? = (murmur3 (sample b') 0)[i]?)

/-- R125, its exact half: from the threshold on, bytes outside the three sampled ranges do not affect the
fingerprint. For inputs of 2^64 bytes or more this is the model's choice (log entry 17). -/
def Obligations.UnsampledBytesDoNotMatter : Prop :=
  ∀ b b' : List Byte, b.length = b'.length → 131072 ≤ b.length →
    (∀ i, i < b.length →
      (i < 16384 ∨ (b.length / 2 - 8192 ≤ i ∧ i < b.length / 2 - 8192 + 16384) ∨ b.length - 16384 ≤ i) →
      b[i]? = b'[i]?) →
    fingerprintOf b = fingerprintOf b'

/-- R121 to R123: below the threshold the sample is the input; from it on, the three ranges do not overlap and the
sample is exactly 49 152 bytes. -/
def Obligations.SampleIsTheInputOrThreeRanges : Prop :=
  ∀ b : List Byte,
    (b.length < 131072 → sample b = b) ∧
    (131072 ≤ b.length →
      16384 ≤ b.length / 2 - 8192 ∧ b.length / 2 - 8192 + 16384 ≤ b.length - 16384 ∧ (sample b).length = 49152 ∧
      ∀ i, i < 16384 → (sample b)[i]? = b[i]? ∧ (sample b)[16384 + i]? = b[b.length / 2 - 8192 + i]? ∧
        (sample b)[32768 + i]? = b[b.length - 16384 + i]?)
end

