-- ==== Sys2Proof/Laws/Bytes.lean ====
section
/-! SUPPORT. Byte sequences and register values, bit by bit: what `le64`, `bytesLe`, `bytemask` and `tailWords` say of
every bit. -/

namespace Sys2Proof.Machine

@[simp] theorem le64_nil : le64 [] = 0 := rfl

theorem le64_cons (b : Byte) (bs : List Byte) : le64 (b :: bs) = b.setWidth 64 ||| (le64 bs <<< 8) := by
  have shift : (256 : Word) * le64 bs = le64 bs <<< 8 := by
    apply BitVec.eq_of_toNat_eq
    simp [BitVec.toNat_mul, BitVec.toNat_shiftLeft, Nat.shiftLeft_eq, Nat.mul_comm]
  show b.setWidth 64 + 256 * le64 bs = _
  rw [shift]
  apply BitVec.add_eq_or_of_and_eq_zero
  apply BitVec.eq_of_getLsbD_eq
  intro i hi
  by_cases h : i < 8
  · simp [h]
  · simp [BitVec.getLsbD_of_ge b i (by omega)]

/-- The bits of `le64`: bit `8*j+k` is bit `k` of byte `j`, zero past the end. -/
theorem le64_getLsbD (bs : List Byte) (i : Nat) (hi : i < 64) :
    (le64 bs).getLsbD i = (bs.getD (i / 8) 0).getLsbD (i % 8) := by
  induction bs generalizing i with
  | nil => simp
  | cons b bs ih =>
    rw [le64_cons]
    by_cases h : i < 8
    · simp [h, hi, Nat.div_eq_of_lt h, Nat.mod_eq_of_lt h]
    · obtain ⟨j, rfl⟩ : ∃ j, i = j + 8 := ⟨i - 8, by omega⟩
      have := ih j (by omega)
      simp only [BitVec.getLsbD_or, BitVec.getLsbD_shiftLeft, BitVec.getLsbD_setWidth, hi, h,
        Nat.add_sub_cancel, BitVec.getLsbD_of_ge b (j + 8) (by omega), this,
        show (j + 8) / 8 = j / 8 + 1 by omega, show (j + 8) % 8 = j % 8 by omega, List.getD_cons_succ]
      simp

theorem byteOf_getLsbD (v : Word) (j k : Nat) (hk : k < 8) : (byteOf v j).getLsbD k = v.getLsbD (8 * j + k) := by
  simp [byteOf, hk]

@[simp] theorem bytesLe_length (v : Word) (n : Nat) : (bytesLe v n).length = n := by simp [bytesLe]

@[simp] theorem bytesOfPair_length (a b : Word) : (bytesOfPair a b).length = 16 := by simp [bytesOfPair]

theorem bytesLe_getElem? (v : Word) (n j : Nat) (hj : j < n) : (bytesLe v n)[j]? = some (byteOf v j) := by
  simp [bytesLe, hj]

theorem bytesOfPair_getElem? (a b : Word) (j : Nat) (hj : j < 16) :
    (bytesOfPair a b)[j]? = some (if j < 8 then byteOf a j else byteOf b (j - 8)) := by
  unfold bytesOfPair
  by_cases h : j < 8
  · rw [List.getElem?_append_left (by simpa using h), bytesLe_getElem? a 8 j h]; simp [h]
  · rw [List.getElem?_append_right (by simpa using h), bytesLe_length, bytesLe_getElem? b 8 _ (by omega)]; simp [h]

/-- Two words are equal when their eight bytes are. -/
theorem word_eq_of_bytes {a b : Word} (h : ∀ j, j < 8 → byteOf a j = byteOf b j) : a = b := by
  apply BitVec.eq_of_getLsbD_eq
  intro i hi
  have := congrArg (·.getLsbD (i % 8)) (h (i / 8) (by omega))
  simp only [byteOf_getLsbD _ _ _ (Nat.mod_lt i (by decide : 8 > 0)), Nat.div_add_mod] at this
  exact this

/-- Byte `j` of `le64` is byte `j` of the sequence. -/
theorem byteOf_le64 (bs : List Byte) (j : Nat) (hj : j < 8) : byteOf (le64 bs) j = bs.getD j 0 := by
  apply BitVec.eq_of_getLsbD_eq
  intro k hk
  rw [byteOf_getLsbD _ _ _ hk, le64_getLsbD _ _ (by omega), show (8 * j + k) / 8 = j by omega,
    show (8 * j + k) % 8 = k by omega]

theorem bytemask_getLsbD (m i : Nat) (hi : i < 64) : (bytemask m).getLsbD i = decide (i < 8 * m) := by
  rw [bytemask, BitVec.getLsbD_ofNat, Nat.testBit_two_pow_sub_one]; simp [hi]

/-- A masked word keeps the bytes below the mask's length and loses the others. -/
theorem byteOf_and_bytemask (v : Word) (m j : Nat) (hj : j < 8) :
    byteOf (v &&& bytemask m) j = if j < m then byteOf v j else 0 := by
  apply BitVec.eq_of_getLsbD_eq
  intro k hk
  rw [byteOf_getLsbD _ _ _ hk, BitVec.getLsbD_and, bytemask_getLsbD _ _ (by omega)]
  by_cases h : j < m
  · simp [h, byteOf_getLsbD _ _ _ hk, show 8 * j + k < 8 * m by omega]
  · simp [h, show ¬ 8 * j + k < 8 * m by omega]

theorem slice_length (b : List Byte) (i j : Nat) : (slice b i j).length = min (j - i) (b.length - i) := by
  simp [slice]

theorem slice_getElem? (b : List Byte) (i j k : Nat) : (slice b i j)[k]? = if k < j - i then b[i + k]? else none := by
  simp [slice, List.getElem?_take, List.getElem?_drop]

end Sys2Proof.Machine
end

