-- ==== Sys2Proof/Laws/Codec.lean ====
section
/-! SUPPORT. The decoder, said once: the fields of a word as numbers, and what each opcode decodes to. -/

namespace Sys2Proof

theorem opField_toNat (w : Word) : (opField w).toNat = w.toNat % 16 := by simp [opField]

theorem countField_toNat (w : Word) : (countField w).toNat = w.toNat / 16 % 16 := by
  simp [countField, Nat.shiftRight_eq_div_pow]

theorem zeroField_eq_zero_iff (w : Word) : zeroField w = 0 ↔ w.toNat < 256 := by
  rw [← BitVec.toNat_inj]
  have : w.toNat < 2 ^ 64 := w.isLt
  simp [zeroField, Nat.shiftRight_eq_div_pow]
  omega

/-- A word is decoded through its two fields alone, once its upper bits are zero. -/
theorem decode_of_lt {w : Word} (h : w.toNat < 256) : decode w = decodeOp (opField w) (countField w) := by
  simp [decode, (zeroField_eq_zero_iff w).2 h]

theorem decode_of_ge {w : Word} (h : 256 ≤ w.toNat) : decode w = .error .reservedBits := by
  have : zeroField w ≠ 0 := fun hz => by have := (zeroField_eq_zero_iff w).1 hz; omega
  rw [decode, if_neg this]

/-- The number of a command's word: the opcode and, above it, the count. -/
theorem encode_toNat {i : Instr} (h : i.wf = true) : (encode i).toNat = i.opcode + 16 * i.count := by
  have : i.opcode + 16 * i.count < 2 ^ 64 := by
    cases i <;> simp [Instr.opcode, Instr.count, Instr.wf] at *
    omega
  simpa [encode] using Nat.mod_eq_of_lt this

end Sys2Proof
end

