-- ==== Sys2Proof/Laws/History.lean ====
section
/-! SUPPORT. What each event makes of a history, said once, and how the blocks of a longer message are those of its
beginning. -/

namespace Sys2Proof.Machine

@[simp] theorem History.fresh_message : History.fresh.message = [] := rfl

@[simp] theorem History.fresh_value : History.fresh.value = none := rfl

/-! ## Commands -/

@[simp] theorem History.afterCommand_nop (e : Engine) (g : History) : g.afterCommand .nop e = g := rfl

@[simp] theorem History.afterCommand_init (e : Engine) (g : History) :
    g.afterCommand .init e = { g with message := [], seed := e.seed } := rfl

theorem History.afterCommand_block {e : Engine} (h : e.phase = .absorb) (g : History) :
    g.afterCommand .block e = { g with message := g.message ++ bytesOfPair e.din0 e.din1 } := by
  simp [History.afterCommand, h]

theorem History.afterCommand_tail {e : Engine} (n : Nat) (h : e.phase = .absorb) (g : History) :
    g.afterCommand (.tail n) e = { g with message := g.message ++ (bytesOfPair e.din0 e.din1).take n } := by
  simp [History.afterCommand, h]

theorem History.afterCommand_block_refused {e : Engine} (h : e.phase ≠ .absorb) (g : History) :
    g.afterCommand .block e = g := by simp [History.afterCommand, h]

theorem History.afterCommand_tail_refused {e : Engine} (n : Nat) (h : e.phase ≠ .absorb) (g : History) :
    g.afterCommand (.tail n) e = g := by simp [History.afterCommand, h]

@[simp] theorem History.afterCommand_final (e : Engine) (g : History) : g.afterCommand .final e = g := rfl

@[simp] theorem History.afterCommand_venc (e : Engine) (g : History) :
    g.afterCommand .venc e = { g with value := some e.vin } := rfl

@[simp] theorem History.afterCommand_compose (e : Engine) (g : History) : g.afterCommand .compose e = g := rfl

@[simp] theorem History.afterCommand_srst (e : Engine) (g : History) : g.afterCommand .srst e = .fresh := rfl

/-! ## Events -/

@[simp] theorem History.after_reset (e : Engine) (g : History) : g.after .reset e = .fresh := rfl

@[simp] theorem History.after_memRead (off n : Nat) (e : Engine) (g : History) : g.after (.memRead off n) e = g := rfl

/-- A write elsewhere than whole to CMD gives nothing. -/
theorem History.after_memWrite_elsewhere {off n : Nat} (v : BitVec (8 * n)) (e : Engine) (g : History)
    (h : ¬ (off = 0x00 ∧ n = 8)) : g.after (.memWrite off n v) e = g := by simp [History.after, h]

/-- A write to CMD of a word that decodes: its command, unless ERR = 1 and it is not SRST (R178). -/
theorem History.after_command {w : Word} {i : Instr} (h : decode w = .ok i) (e : Engine) (g : History) :
    g.after (.memWrite 0x00 8 w) e = if e.err = true ∧ i ≠ .srst then g else g.afterCommand i e := by
  have hw : BitVec.setWidth 64 (w : BitVec (8 * 8)) = w := BitVec.setWidth_eq w
  simp only [History.after, hw, h, and_self, if_true]

/-- A write to CMD of an illegal word gives nothing. -/
theorem History.after_illegal {w : Word} {r : DecodeError} (h : decode w = .error r) (e : Engine) (g : History) :
    g.after (.memWrite 0x00 8 w) e = g := by
  have hw : BitVec.setWidth 64 (w : BitVec (8 * 8)) = w := BitVec.setWidth_eq w
  simp only [History.after, hw, h, and_self, if_true]

/-! ## The blocks of a longer message -/

theorem slice_append_left (a b : List Byte) (i j : Nat) (h : j ≤ a.length) : slice (a ++ b) i j = slice a i j := by
  apply List.ext_getElem?
  intro k
  rw [slice_getElem?, slice_getElem?]
  by_cases hk : k < j - i
  · rw [if_pos hk, if_pos hk, List.getElem?_append_left (by omega)]
  · rw [if_neg hk, if_neg hk]

/-- The blocks within `a` do not see the bytes after it (R98). -/
theorem murmurBlocks_append (a b : List Byte) (seed : BitVec 32) (k : Nat) (h : 16 * k ≤ a.length) :
    murmurBlocks (a ++ b) seed k = murmurBlocks a seed k := by
  induction k with
  | zero => rfl
  | succ k ih =>
    simp only [murmurBlocks]
    rw [ih (by omega), slice_append_left _ _ _ _ (by omega), slice_append_left _ _ _ _ (by omega)]

end Sys2Proof.Machine
end

