-- ==== Sys2Proof/Laws/State.lean ====
section
/-! SUPPORT. One lemma per field per update, each true by rfl: the three updates of State, and the named updates of the
engine. -/

namespace Sys2Proof.Machine

/-! ## Updates of the machine -/

@[simp] theorem State.withEngine_engine (s : State) (x : Engine) : (s.withEngine x).engine = x := rfl
@[simp] theorem State.withEngine_incoming (s : State) (x : Engine) : (s.withEngine x).incoming = s.incoming := rfl
@[simp] theorem State.withEngine_answers (s : State) (x : Engine) : (s.withEngine x).answers = s.answers := rfl

@[simp] theorem State.answer_engine (s : State) (x : Response) : (s.answer x).engine = s.engine := rfl
@[simp] theorem State.answer_incoming (s : State) (x : Response) : (s.answer x).incoming = s.incoming := rfl
@[simp] theorem State.answer_answers (s : State) (x : Response) : (s.answer x).answers = s.answers ++ [x] := rfl

@[simp] theorem State.withIncoming_engine (s : State) (x : List HostEvent) :
    (s.withIncoming x).engine = s.engine := rfl
@[simp] theorem State.withIncoming_incoming (s : State) (x : List HostEvent) : (s.withIncoming x).incoming = x := rfl
@[simp] theorem State.withIncoming_answers (s : State) (x : List HostEvent) :
    (s.withIncoming x).answers = s.answers := rfl

@[simp] theorem State.withEngine_self (s : State) : s.withEngine s.engine = s := rfl

@[simp] theorem State.withEngine_withEngine (s : State) (x y : Engine) :
    (s.withEngine x).withEngine y = s.withEngine y := rfl

@[simp] theorem onNext_next (f : State → State) (s : State) : onNext f (.next s) = .next (f s) := rfl

/-! ## `cmdFault` -/

@[simp] theorem cmdFault_h1 (c : CmdFault) (e : Engine) : (cmdFault c e).h1 = e.h1 := rfl
@[simp] theorem cmdFault_h2 (c : CmdFault) (e : Engine) : (cmdFault c e).h2 = e.h2 := rfl
@[simp] theorem cmdFault_len (c : CmdFault) (e : Engine) : (cmdFault c e).len = e.len := rfl
@[simp] theorem cmdFault_seed (c : CmdFault) (e : Engine) : (cmdFault c e).seed = e.seed := rfl
@[simp] theorem cmdFault_din0 (c : CmdFault) (e : Engine) : (cmdFault c e).din0 = e.din0 := rfl
@[simp] theorem cmdFault_din1 (c : CmdFault) (e : Engine) : (cmdFault c e).din1 = e.din1 := rfl
@[simp] theorem cmdFault_vin (c : CmdFault) (e : Engine) : (cmdFault c e).vin = e.vin := rfl
@[simp] theorem cmdFault_vout0 (c : CmdFault) (e : Engine) : (cmdFault c e).vout0 = e.vout0 := rfl
@[simp] theorem cmdFault_vout1 (c : CmdFault) (e : Engine) : (cmdFault c e).vout1 = e.vout1 := rfl
@[simp] theorem cmdFault_vlen (c : CmdFault) (e : Engine) : (cmdFault c e).vlen = e.vlen := rfl
@[simp] theorem cmdFault_fp0 (c : CmdFault) (e : Engine) : (cmdFault c e).fp0 = e.fp0 := rfl
@[simp] theorem cmdFault_fp1 (c : CmdFault) (e : Engine) : (cmdFault c e).fp1 = e.fp1 := rfl
@[simp] theorem cmdFault_phase (c : CmdFault) (e : Engine) : (cmdFault c e).phase = e.phase := rfl
@[simp] theorem cmdFault_vvalid (c : CmdFault) (e : Engine) : (cmdFault c e).vvalid = e.vvalid := rfl
@[simp] theorem cmdFault_fpvalid (c : CmdFault) (e : Engine) : (cmdFault c e).fpvalid = e.fpvalid := rfl
@[simp] theorem cmdFault_err (c : CmdFault) (e : Engine) : (cmdFault c e).err = true := rfl
@[simp] theorem cmdFault_ecode (c : CmdFault) (e : Engine) : (cmdFault c e).ecode = c.code := rfl

/-! ## `openMessage` -/

@[simp] theorem openMessage_h1 (e : Engine) : (openMessage e).h1 = zextSeed e.seed := by cases e; rfl
@[simp] theorem openMessage_h2 (e : Engine) : (openMessage e).h2 = zextSeed e.seed := by cases e; rfl
@[simp] theorem openMessage_len (e : Engine) : (openMessage e).len = 0 := by cases e; rfl
@[simp] theorem openMessage_seed (e : Engine) : (openMessage e).seed = e.seed := by cases e; rfl
@[simp] theorem openMessage_din0 (e : Engine) : (openMessage e).din0 = e.din0 := by cases e; rfl
@[simp] theorem openMessage_din1 (e : Engine) : (openMessage e).din1 = e.din1 := by cases e; rfl
@[simp] theorem openMessage_vin (e : Engine) : (openMessage e).vin = e.vin := by cases e; rfl
@[simp] theorem openMessage_vout0 (e : Engine) : (openMessage e).vout0 = e.vout0 := by cases e; rfl
@[simp] theorem openMessage_vout1 (e : Engine) : (openMessage e).vout1 = e.vout1 := by cases e; rfl
@[simp] theorem openMessage_vlen (e : Engine) : (openMessage e).vlen = e.vlen := by cases e; rfl
@[simp] theorem openMessage_fp0 (e : Engine) : (openMessage e).fp0 = e.fp0 := by cases e; rfl
@[simp] theorem openMessage_fp1 (e : Engine) : (openMessage e).fp1 = e.fp1 := by cases e; rfl
@[simp] theorem openMessage_phase (e : Engine) : (openMessage e).phase = .absorb := by cases e; rfl
@[simp] theorem openMessage_vvalid (e : Engine) : (openMessage e).vvalid = e.vvalid := by cases e; rfl
@[simp] theorem openMessage_fpvalid (e : Engine) : (openMessage e).fpvalid = false := by cases e; rfl
@[simp] theorem openMessage_err (e : Engine) : (openMessage e).err = e.err := by cases e; rfl
@[simp] theorem openMessage_ecode (e : Engine) : (openMessage e).ecode = e.ecode := by cases e; rfl

/-! ## `absorbBlock` -/

@[simp] theorem absorbBlock_h1 (e : Engine) :
    (absorbBlock e).h1 = (blockMix e.h1 e.h2 e.din0 e.din1).1 := by cases e; rfl
@[simp] theorem absorbBlock_h2 (e : Engine) :
    (absorbBlock e).h2 = (blockMix e.h1 e.h2 e.din0 e.din1).2 := by cases e; rfl
@[simp] theorem absorbBlock_len (e : Engine) : (absorbBlock e).len = e.len + 16 := by cases e; rfl
@[simp] theorem absorbBlock_seed (e : Engine) : (absorbBlock e).seed = e.seed := by cases e; rfl
@[simp] theorem absorbBlock_din0 (e : Engine) : (absorbBlock e).din0 = e.din0 := by cases e; rfl
@[simp] theorem absorbBlock_din1 (e : Engine) : (absorbBlock e).din1 = e.din1 := by cases e; rfl
@[simp] theorem absorbBlock_vin (e : Engine) : (absorbBlock e).vin = e.vin := by cases e; rfl
@[simp] theorem absorbBlock_vout0 (e : Engine) : (absorbBlock e).vout0 = e.vout0 := by cases e; rfl
@[simp] theorem absorbBlock_vout1 (e : Engine) : (absorbBlock e).vout1 = e.vout1 := by cases e; rfl
@[simp] theorem absorbBlock_vlen (e : Engine) : (absorbBlock e).vlen = e.vlen := by cases e; rfl
@[simp] theorem absorbBlock_fp0 (e : Engine) : (absorbBlock e).fp0 = e.fp0 := by cases e; rfl
@[simp] theorem absorbBlock_fp1 (e : Engine) : (absorbBlock e).fp1 = e.fp1 := by cases e; rfl
@[simp] theorem absorbBlock_phase (e : Engine) : (absorbBlock e).phase = e.phase := by cases e; rfl
@[simp] theorem absorbBlock_vvalid (e : Engine) : (absorbBlock e).vvalid = e.vvalid := by cases e; rfl
@[simp] theorem absorbBlock_fpvalid (e : Engine) : (absorbBlock e).fpvalid = e.fpvalid := by cases e; rfl
@[simp] theorem absorbBlock_err (e : Engine) : (absorbBlock e).err = e.err := by cases e; rfl
@[simp] theorem absorbBlock_ecode (e : Engine) : (absorbBlock e).ecode = e.ecode := by cases e; rfl

/-! ## `absorbTail` -/

@[simp] theorem absorbTail_h1 (n : Nat) (e : Engine) :
    (absorbTail n e).h1 = e.h1 ^^^ mixK1 (tailWords e.din0 e.din1 n).1 := by cases e; rfl
@[simp] theorem absorbTail_h2 (n : Nat) (e : Engine) :
    (absorbTail n e).h2 = e.h2 ^^^ mixK2 (tailWords e.din0 e.din1 n).2 := by cases e; rfl
@[simp] theorem absorbTail_len (n : Nat) (e : Engine) :
    (absorbTail n e).len = e.len + BitVec.ofNat 64 n := by cases e; rfl
@[simp] theorem absorbTail_seed (n : Nat) (e : Engine) : (absorbTail n e).seed = e.seed := by cases e; rfl
@[simp] theorem absorbTail_din0 (n : Nat) (e : Engine) : (absorbTail n e).din0 = e.din0 := by cases e; rfl
@[simp] theorem absorbTail_din1 (n : Nat) (e : Engine) : (absorbTail n e).din1 = e.din1 := by cases e; rfl
@[simp] theorem absorbTail_vin (n : Nat) (e : Engine) : (absorbTail n e).vin = e.vin := by cases e; rfl
@[simp] theorem absorbTail_vout0 (n : Nat) (e : Engine) : (absorbTail n e).vout0 = e.vout0 := by cases e; rfl
@[simp] theorem absorbTail_vout1 (n : Nat) (e : Engine) : (absorbTail n e).vout1 = e.vout1 := by cases e; rfl
@[simp] theorem absorbTail_vlen (n : Nat) (e : Engine) : (absorbTail n e).vlen = e.vlen := by cases e; rfl
@[simp] theorem absorbTail_fp0 (n : Nat) (e : Engine) : (absorbTail n e).fp0 = e.fp0 := by cases e; rfl
@[simp] theorem absorbTail_fp1 (n : Nat) (e : Engine) : (absorbTail n e).fp1 = e.fp1 := by cases e; rfl
@[simp] theorem absorbTail_phase (n : Nat) (e : Engine) : (absorbTail n e).phase = .tailed := by cases e; rfl
@[simp] theorem absorbTail_vvalid (n : Nat) (e : Engine) : (absorbTail n e).vvalid = e.vvalid := by cases e; rfl
@[simp] theorem absorbTail_fpvalid (n : Nat) (e : Engine) : (absorbTail n e).fpvalid = e.fpvalid := by cases e; rfl
@[simp] theorem absorbTail_err (n : Nat) (e : Engine) : (absorbTail n e).err = e.err := by cases e; rfl
@[simp] theorem absorbTail_ecode (n : Nat) (e : Engine) : (absorbTail n e).ecode = e.ecode := by cases e; rfl

/-! ## `finalizeMessage` -/

@[simp] theorem finalizeMessage_h1 (e : Engine) :
    (finalizeMessage e).h1 = (finalize e.h1 e.h2 e.len).1 := by cases e; rfl
@[simp] theorem finalizeMessage_h2 (e : Engine) :
    (finalizeMessage e).h2 = (finalize e.h1 e.h2 e.len).2 := by cases e; rfl
@[simp] theorem finalizeMessage_len (e : Engine) : (finalizeMessage e).len = e.len := by cases e; rfl
@[simp] theorem finalizeMessage_seed (e : Engine) : (finalizeMessage e).seed = e.seed := by cases e; rfl
@[simp] theorem finalizeMessage_din0 (e : Engine) : (finalizeMessage e).din0 = e.din0 := by cases e; rfl
@[simp] theorem finalizeMessage_din1 (e : Engine) : (finalizeMessage e).din1 = e.din1 := by cases e; rfl
@[simp] theorem finalizeMessage_vin (e : Engine) : (finalizeMessage e).vin = e.vin := by cases e; rfl
@[simp] theorem finalizeMessage_vout0 (e : Engine) : (finalizeMessage e).vout0 = e.vout0 := by cases e; rfl
@[simp] theorem finalizeMessage_vout1 (e : Engine) : (finalizeMessage e).vout1 = e.vout1 := by cases e; rfl
@[simp] theorem finalizeMessage_vlen (e : Engine) : (finalizeMessage e).vlen = e.vlen := by cases e; rfl
@[simp] theorem finalizeMessage_fp0 (e : Engine) : (finalizeMessage e).fp0 = e.fp0 := by cases e; rfl
@[simp] theorem finalizeMessage_fp1 (e : Engine) : (finalizeMessage e).fp1 = e.fp1 := by cases e; rfl
@[simp] theorem finalizeMessage_phase (e : Engine) : (finalizeMessage e).phase = .done := by cases e; rfl
@[simp] theorem finalizeMessage_vvalid (e : Engine) : (finalizeMessage e).vvalid = e.vvalid := by cases e; rfl
@[simp] theorem finalizeMessage_fpvalid (e : Engine) : (finalizeMessage e).fpvalid = e.fpvalid := by cases e; rfl
@[simp] theorem finalizeMessage_err (e : Engine) : (finalizeMessage e).err = e.err := by cases e; rfl
@[simp] theorem finalizeMessage_ecode (e : Engine) : (finalizeMessage e).ecode = e.ecode := by cases e; rfl

/-! ## `encodeVin` -/

@[simp] theorem encodeVin_h1 (e : Engine) : (encodeVin e).h1 = e.h1 := by cases e; rfl
@[simp] theorem encodeVin_h2 (e : Engine) : (encodeVin e).h2 = e.h2 := by cases e; rfl
@[simp] theorem encodeVin_len (e : Engine) : (encodeVin e).len = e.len := by cases e; rfl
@[simp] theorem encodeVin_seed (e : Engine) : (encodeVin e).seed = e.seed := by cases e; rfl
@[simp] theorem encodeVin_din0 (e : Engine) : (encodeVin e).din0 = e.din0 := by cases e; rfl
@[simp] theorem encodeVin_din1 (e : Engine) : (encodeVin e).din1 = e.din1 := by cases e; rfl
@[simp] theorem encodeVin_vin (e : Engine) : (encodeVin e).vin = e.vin := by cases e; rfl
@[simp] theorem encodeVin_vout0 (e : Engine) :
    (encodeVin e).vout0 = le64 (slice (paddedVarint e.vin) 0 8) := by cases e; rfl
@[simp] theorem encodeVin_vout1 (e : Engine) :
    (encodeVin e).vout1 = le64 (slice (paddedVarint e.vin) 8 16) := by cases e; rfl
@[simp] theorem encodeVin_vlen (e : Engine) :
    (encodeVin e).vlen = BitVec.ofNat 4 (varint e.vin).length := by cases e; rfl
@[simp] theorem encodeVin_fp0 (e : Engine) : (encodeVin e).fp0 = e.fp0 := by cases e; rfl
@[simp] theorem encodeVin_fp1 (e : Engine) : (encodeVin e).fp1 = e.fp1 := by cases e; rfl
@[simp] theorem encodeVin_phase (e : Engine) : (encodeVin e).phase = e.phase := by cases e; rfl
@[simp] theorem encodeVin_vvalid (e : Engine) : (encodeVin e).vvalid = true := by cases e; rfl
@[simp] theorem encodeVin_fpvalid (e : Engine) : (encodeVin e).fpvalid = false := by cases e; rfl
@[simp] theorem encodeVin_err (e : Engine) : (encodeVin e).err = e.err := by cases e; rfl
@[simp] theorem encodeVin_ecode (e : Engine) : (encodeVin e).ecode = e.ecode := by cases e; rfl

/-! ## `composeFingerprint` -/

@[simp] theorem composeFingerprint_h1 (e : Engine) : (composeFingerprint e).h1 = e.h1 := by cases e; rfl
@[simp] theorem composeFingerprint_h2 (e : Engine) : (composeFingerprint e).h2 = e.h2 := by cases e; rfl
@[simp] theorem composeFingerprint_len (e : Engine) : (composeFingerprint e).len = e.len := by cases e; rfl
@[simp] theorem composeFingerprint_seed (e : Engine) : (composeFingerprint e).seed = e.seed := by cases e; rfl
@[simp] theorem composeFingerprint_din0 (e : Engine) : (composeFingerprint e).din0 = e.din0 := by cases e; rfl
@[simp] theorem composeFingerprint_din1 (e : Engine) : (composeFingerprint e).din1 = e.din1 := by cases e; rfl
@[simp] theorem composeFingerprint_vin (e : Engine) : (composeFingerprint e).vin = e.vin := by cases e; rfl
@[simp] theorem composeFingerprint_vout0 (e : Engine) : (composeFingerprint e).vout0 = e.vout0 := by cases e; rfl
@[simp] theorem composeFingerprint_vout1 (e : Engine) : (composeFingerprint e).vout1 = e.vout1 := by cases e; rfl
@[simp] theorem composeFingerprint_vlen (e : Engine) : (composeFingerprint e).vlen = e.vlen := by cases e; rfl
@[simp] theorem composeFingerprint_fp0 (e : Engine) :
    (composeFingerprint e).fp0 =
      le64 (slice (overlay e.vlen (bytesOfPair e.vout0 e.vout1) (bytesOfPair e.h1 e.h2)) 0 8) := by
  cases e; rfl
@[simp] theorem composeFingerprint_fp1 (e : Engine) :
    (composeFingerprint e).fp1 =
      le64 (slice (overlay e.vlen (bytesOfPair e.vout0 e.vout1) (bytesOfPair e.h1 e.h2)) 8 16) := by
  cases e; rfl
@[simp] theorem composeFingerprint_phase (e : Engine) : (composeFingerprint e).phase = e.phase := by cases e; rfl
@[simp] theorem composeFingerprint_vvalid (e : Engine) : (composeFingerprint e).vvalid = e.vvalid := by cases e; rfl
@[simp] theorem composeFingerprint_fpvalid (e : Engine) : (composeFingerprint e).fpvalid = true := by cases e; rfl
@[simp] theorem composeFingerprint_err (e : Engine) : (composeFingerprint e).err = e.err := by cases e; rfl
@[simp] theorem composeFingerprint_ecode (e : Engine) : (composeFingerprint e).ecode = e.ecode := by cases e; rfl

end Sys2Proof.Machine
end

