-- ==== Sys2Proof/Laws/Ops.lean ====
section
/-! SUPPORT. What each shared operation can do, said once: the access check, a register read or write, the form of a
command, and one delivery at the host port. -/

namespace Sys2Proof.Machine

/-! ## The register space -/

theorem Reg.ofOffset?_offset (r : Reg) : Reg.ofOffset? r.offset = some r := by cases r <;> rfl

theorem Reg.offset_of_ofOffset? {off : Nat} {r : Reg} (h : Reg.ofOffset? off = some r) : off = r.offset := by
  unfold Reg.ofOffset? at h
  split at h <;> first | (obtain rfl := Option.some.inj h; rfl) | cases h

/-- The access check passes exactly at a register's offset, with size 8 and the right (R53). -/
theorem checkAccess_ok_iff (kind : AccessKind) (off n : Nat) (r : Reg) :
    checkAccess kind off n = .ok r ↔ n = 8 ∧ off = r.offset ∧ r.allows kind = true := by
  unfold checkAccess
  constructor
  · intro h
    split at h
    · cases h
    · split at h
      · cases h
      · split at h
        · cases h
        · rename_i q hq
          split at h
          · obtain rfl := Except.ok.inj h
            exact ⟨by omega, Reg.offset_of_ofOffset? hq, ‹_›⟩
          · cases h
  · rintro ⟨rfl, rfl, h⟩
    have : r.offset % 8 = 0 := by cases r <;> rfl
    simp [this, Reg.ofOffset?_offset, h]

/-- A register write changes only SEED, DIN0, DIN1 and VIN (R55). -/
theorem writeReg_frame (r : Reg) (v : Word) (e : Engine) :
    writeReg r v e =
      { e with
        seed := (writeReg r v e).seed, din0 := (writeReg r v e).din0, din1 := (writeReg r v e).din1,
        vin := (writeReg r v e).vin } := by
  cases r <;> rfl

/-! ## The form of a command -/

/-- A command always answers a next state: the same state while ERR = 1, else its effect on the engine (R75, R178). -/
theorem command_running (f : Engine → Engine) (s : State) (h : s.engine.err = false) :
    command f s = .next (s.withEngine (f s.engine)) := by simp [command, h]

theorem command_ignored (f : Engine → Engine) (s : State) (h : s.engine.err = true) : command f s = .next s := by
  simp [command, h]

theorem guarded_legal {legal : Engine → Bool} {e : Engine} (c : CmdFault) (f : Engine → Engine) (h : legal e = true) :
    guarded legal c f e = f e := by simp [guarded, h]

theorem guarded_fault {legal : Engine → Bool} {e : Engine} (c : CmdFault) (f : Engine → Engine) (h : legal e = false) :
    guarded legal c f e = cmdFault c e := by simp [guarded, h]

/-- The engine after a command: `exec i` is this on the engine, and touches nothing else of the machine. -/
def execEngine (i : Instr) (e : Engine) : Engine :=
  match i with
  | .srst => Engine.reset
  | .nop => e
  | .init => if e.err then e else openMessage e
  | .block => if e.err then e else guarded Engine.mayAbsorb .sequence absorbBlock e
  | .tail n => if e.err then e else guarded Engine.mayAbsorb .sequence (absorbTail n) e
  | .final => if e.err then e else guarded Engine.mayFinalize .sequence finalizeMessage e
  | .venc => if e.err then e else encodeVin e
  | .compose => if e.err then e else guarded Engine.mayCompose .notReady composeFingerprint e

/-- Every command answers a next state, and acts on the engine alone. -/
theorem exec_eq (i : Instr) (s : State) : exec i s = .next (s.withEngine (execEngine i s.engine)) := by
  by_cases h : s.engine.err = true <;>
    cases i <;>
    simp [exec, execNop, execInit, execBlock, execTail, execFinal, execVenc, execCompose, execSrst, command, softReset,
      execEngine, h]

/-- What a command can do to an engine with ERR = 0: one of the seven effects under its precondition, nothing, the
reset, or a command fault and nothing else (R75 to R78, R177). -/
theorem execEngine_cases (i : Instr) (e : Engine) (h : e.err = false) :
    (i = .nop ∧ execEngine i e = e) ∨ (i = .srst ∧ execEngine i e = Engine.reset) ∨
    (i = .init ∧ execEngine i e = openMessage e) ∨ (i = .venc ∧ execEngine i e = encodeVin e) ∨
    (i = .block ∧ e.phase = .absorb ∧ execEngine i e = absorbBlock e) ∨
    (∃ n, i = .tail n ∧ e.phase = .absorb ∧ execEngine i e = absorbTail n e) ∨
    (i = .final ∧ (e.phase = .absorb ∨ e.phase = .tailed) ∧ execEngine i e = finalizeMessage e) ∨
    (i = .compose ∧ e.phase = .done ∧ e.vvalid = true ∧ execEngine i e = composeFingerprint e) ∨
    ((i = .block ∨ (∃ n, i = .tail n)) ∧ e.phase ≠ .absorb ∧ execEngine i e = cmdFault .sequence e) ∨
    (i = .final ∧ e.phase ≠ .absorb ∧ e.phase ≠ .tailed ∧ execEngine i e = cmdFault .sequence e) ∨
    (i = .compose ∧ (e.phase ≠ .done ∨ e.vvalid = false) ∧ execEngine i e = cmdFault .notReady e) := by
  cases i <;> cases hp : e.phase <;> cases hv : e.vvalid <;>
    simp [execEngine, h, hp, hv, guarded, Engine.mayAbsorb, Engine.mayFinalize, Engine.mayCompose]

/-! ## The host port -/

/-- The engine after a write of `w` to CMD (R75). -/
def writeCommandEngine (w : Word) (e : Engine) : Engine :=
  match decode w with
  | .ok i => execEngine i e
  | .error _ => if e.err then e else cmdFault .illegalCmd e

theorem writeCommand_eq (w : Word) (s : State) :
    writeCommand w s = .next (s.withEngine (writeCommandEngine w s.engine)) := by
  unfold writeCommand writeCommandEngine
  cases decode w with
  | ok i => exact exec_eq i s
  | error f => by_cases h : s.engine.err = true <;> simp [illegalCommand, command, h]

/-- The engine after a host event. -/
def deliverEngine (ev : HostEvent) (e : Engine) : Engine :=
  match ev with
  | .memRead _ _ => e
  | .memWrite off n v =>
    match checkAccess .write off n with
    | .error _ => e
    | .ok .cmd => writeCommandEngine (v.setWidth 64) e
    | .ok r => writeReg r (v.setWidth 64) e
  | .reset => Engine.reset

/-- The answers to a host event: one to a host operation, none to a reset (R212). -/
def deliverAnswers (ev : HostEvent) (e : Engine) : List Response :=
  match ev with
  | .memRead off n => [readAnswer off n e]
  | .memWrite off n _ =>
    match checkAccess .write off n with
    | .error _ => [.err]
    | .ok _ => [.ok]
  | .reset => []

/-- One delivery: always a next state, with the event's effect on the engine and its answers, and nothing else. -/
theorem deliver_eq (ev : HostEvent) (s : State) :
    deliver ev s = .next
      { engine := deliverEngine ev s.engine, incoming := s.incoming,
        answers := s.answers ++ deliverAnswers ev s.engine } := by
  cases ev with
  | memRead off n => rfl
  | memWrite off n v =>
    simp only [deliver, memWrite, deliverEngine, deliverAnswers]
    cases h : checkAccess .write off n with
    | error f => rfl
    | ok r => cases r <;> first | rfl | (simp only [writeRegister, writeCommand_eq]; rfl)
  | reset => simp [deliver, resetInput, deliverEngine, deliverAnswers, State.withEngine]

/-- One step: the next event delivered, or nothing when there is none (R14, R62). -/
theorem step_cons {s : State} {ev : HostEvent} {rest : List HostEvent} (h : s.incoming = ev :: rest) :
    step s = .next
      { engine := deliverEngine ev s.engine, incoming := rest,
        answers := s.answers ++ deliverAnswers ev s.engine } := by
  simp only [step, deliverNext, h, deliver_eq]; rfl

theorem step_nil {s : State} (h : s.incoming = []) : step s = .next s := by simp [step, deliverNext, h]

/-- What can happen to the engine in a step: nothing, a reset, a register write, or a write to CMD. -/
theorem step_engine_cases {s t : State} (h : step s = .next t) :
    t.engine = s.engine ∨
    (s.incoming.head? = some .reset ∧ t.engine = Engine.reset) ∨
    (∃ (r : Reg) (v : Word), r ≠ .cmd ∧ r.writable = true ∧ s.incoming.head? = some (.memWrite r.offset 8 v) ∧
      t.engine = writeReg r v s.engine) ∨
    (∃ w : Word, s.incoming.head? = some (.memWrite 0x00 8 w) ∧ t.engine = writeCommandEngine w s.engine) := by
  cases hin : s.incoming with
  | nil =>
    rw [step_nil hin] at h
    obtain rfl := Host.Outcome.next.inj h
    exact .inl rfl
  | cons ev rest =>
    rw [step_cons hin] at h
    obtain rfl := Host.Outcome.next.inj h
    cases ev with
    | memRead off n => exact .inl rfl
    | reset => exact .inr (.inl ⟨rfl, rfl⟩)
    | memWrite off n v =>
      simp only [deliverEngine]
      cases hc : checkAccess .write off n with
      | error f => exact .inl rfl
      | ok r =>
        obtain ⟨rfl, rfl, hr⟩ := (checkAccess_ok_iff _ _ _ _).1 hc
        right; right
        by_cases h0 : r = .cmd
        · subst h0
          exact .inr ⟨v, rfl, by simp⟩
        · refine .inl ⟨r, v, h0, hr, rfl, ?_⟩
          cases r <;> simp_all

end Sys2Proof.Machine
end

