-- ==== Sys2Proof/Laws/PerInstr.lean ====
section
/-! SUPPORT. One statement about every command as syntax: its word agrees with its row of the opcode table
(30_encoding.md R72). -/

namespace Sys2Proof.Laws.TableRow

/-- The word of a well-formed command matches the `match` and `mask` of its row (R72). -/
def Statement (i : Instr) : Prop := i.wf = true → encode i &&& i.rowMask = i.rowMatch

theorem nop : Statement .nop := fun _ => by decide

theorem init : Statement .init := fun _ => by decide

theorem block : Statement .block := fun _ => by decide

theorem tail (n : Nat) : Statement (.tail n) := fun h => by
  have hn : n < 16 := by simp [Instr.wf] at h; omega
  interval_cases n <;> decide

theorem final : Statement .final := fun _ => by decide

theorem venc : Statement .venc := fun _ => by decide

theorem compose : Statement .compose := fun _ => by decide

theorem srst : Statement .srst := fun _ => by decide

end Sys2Proof.Laws.TableRow
end

