-- ==== Sys2Proof/Laws/Varint.lean ====
section
/-! SUPPORT. The encoder's loop and the length of what it emits. -/

namespace Sys2Proof.Machine

theorem varintLoop_of_ge (fuel : Nat) {v : Word} (h : 128 ≤ v.toNat) :
    varintLoop (fuel + 1) v = ((v &&& 0x7F) ||| 0x80).setWidth 8 :: varintLoop fuel (v >>> 7) := by
  simp [varintLoop, h]

theorem varintLoop_of_lt (fuel : Nat) {v : Word} (h : v.toNat < 128) : varintLoop fuel v = [v.setWidth 8] := by
  cases fuel <;> simp [varintLoop, show ¬ 128 ≤ v.toNat by omega]

theorem shift_seven_toNat (v : Word) : (v >>> 7).toNat = v.toNat / 128 := by
  simp [Nat.shiftRight_eq_div_pow]

/-- More rounds than the value needs change nothing. -/
theorem varintLoop_fuel (fuel : Nat) (v : Word) (h : v.toNat < 128 ^ (fuel + 1)) :
    varintLoop (fuel + 1) v = varintLoop fuel v := by
  induction fuel generalizing v with
  | zero => rw [varintLoop_of_lt 1 (by simpa using h), varintLoop_of_lt 0 (by simpa using h)]
  | succ n ih =>
    by_cases hv : 128 ≤ v.toNat
    · have : (v >>> 7).toNat < 128 ^ (n + 1) := by
        rw [shift_seven_toNat]
        exact Nat.div_lt_of_lt_mul (by rw [pow_succ, Nat.mul_comm] at h; exact h)
      rw [varintLoop_of_ge (n + 1) hv, varintLoop_of_ge n hv, ih _ this]
    · rw [varintLoop_of_lt _ (by omega), varintLoop_of_lt _ (by omega)]

theorem varintLoop_length (fuel : Nat) (v : Word) :
    1 ≤ (varintLoop fuel v).length ∧ (varintLoop fuel v).length ≤ fuel + 1 := by
  induction fuel generalizing v with
  | zero => simp [varintLoop]
  | succ n ih =>
    by_cases hv : 128 ≤ v.toNat
    · have := ih (v >>> 7)
      simp only [varintLoop_of_ge n hv, List.length_cons]
      omega
    · simp [varintLoop_of_lt (n + 1) (show v.toNat < 128 by omega)]

theorem paddedVarint_length (v : Word) : (paddedVarint v).length = 16 := by
  have : (varint v).length ≤ 10 := (varintLoop_length 9 v).2
  simp only [paddedVarint, List.length_append, List.length_replicate]
  omega

end Sys2Proof.Machine
end

