-- ==== Sys2Proof/Tests/Slice0.lean ====
section
/-! SUPPORT. Tests: the check of the operand, words written out from the spec's encoding, one step of each command with
the results that spec/95_test_vectors.md gives, and for every statement with hypotheses a state or operand that meets
them. -/

namespace Sys2Proof.Tests.Slice0

open Sys2Proof.Machine

/-! ## Helpers -/

/-- The machine with this engine and these host events to come. -/
def start (e : Engine) (evs : List HostEvent) : State where
  engine := e
  incoming := evs
  answers := []

/-- The next state that a result answers. -/
def nextOf : Result → Option State
  | .next t => some t
  | _ => none

/-- The engine after one step that delivers `ev`. -/
def after (e : Engine) (ev : HostEvent) : Option Engine :=
  (nextOf (step (start e [ev]))).map State.engine

/-- The answers given in one step that delivers `ev`. -/
def answered (e : Engine) (ev : HostEvent) : Option (List Response) :=
  (nextOf (step (start e [ev]))).map State.answers

/-- After reset, with these data registers. -/
def loaded (d0 d1 v : Word) : Engine := { Engine.reset with din0 := d0, din1 := d1, vin := v }

/-- Phase ABSORB, from seed 0. -/
def absorbing : Engine := { Engine.reset with phase := .absorb }

/-- Phase TAILED, the empty message. -/
def tailed : Engine := { Engine.reset with phase := .tailed }

/-- Phase DONE, the digest of the empty message. -/
def finished : Engine := { Engine.reset with phase := .done }

/-- Phase DONE with an encoding and the digest of the one byte 00 (95_test_vectors.md P2, before COMPOSE). -/
def ready : Engine :=
  { finished with h1 := 0x4610abe56eff5cb5, h2 := 0x51622daa78f83583, vout0 := 1, vlen := 1, vvalid := true }

/-- ERR = 1 with code E_SEQUENCE (STATUS 0x0210). -/
def faulted : Engine := { Engine.reset with err := true, ecode := 2 }

/-! ## The operand check (30_encoding.md R71) -/

theorem test_wf_refuses_count_16 : (Instr.tail 16).wf = false := by decide

theorem test_wf_accepts_count_15 : (Instr.tail 15).wf = true ∧ (Instr.tail 0).wf = true := by decide

/-! ## Decoding, from the words of R72 written out bit by bit: bits 63:8, N, OP -/

theorem test_decode_nop : decode (0#56 ++ 0b0000#4 ++ 0b0000#4) = .ok .nop := by decide
theorem test_decode_init : decode (0#56 ++ 0b0000#4 ++ 0b0001#4) = .ok .init := by decide
theorem test_decode_block : decode (0#56 ++ 0b0000#4 ++ 0b0010#4) = .ok .block := by decide
theorem test_decode_tail_0 : decode (0#56 ++ 0b0000#4 ++ 0b0011#4) = .ok (.tail 0) := by decide
theorem test_decode_tail_5 : decode (0#56 ++ 0b0101#4 ++ 0b0011#4) = .ok (.tail 5) := by decide
theorem test_decode_tail_8 : decode (0#56 ++ 0b1000#4 ++ 0b0011#4) = .ok (.tail 8) := by decide
theorem test_decode_final : decode (0#56 ++ 0b0000#4 ++ 0b0100#4) = .ok .final := by decide
theorem test_decode_venc : decode (0#56 ++ 0b0000#4 ++ 0b0101#4) = .ok .venc := by decide
theorem test_decode_compose : decode (0#56 ++ 0b0000#4 ++ 0b0110#4) = .ok .compose := by decide
theorem test_decode_srst : decode (0#56 ++ 0b0000#4 ++ 0b1111#4) = .ok .srst := by decide

/-- R74: each of the three conditions. -/
theorem test_decode_rejects :
    decode (1#56 ++ 0b0000#4 ++ 0b0001#4) = .error .reservedBits ∧
    decode (0#56 ++ 0b0000#4 ++ 0b0111#4) = .error .reservedOp ∧
    decode (0#56 ++ 0b0000#4 ++ 0b1110#4) = .error .reservedOp ∧
    decode (0#56 ++ 0b0001#4 ++ 0b1111#4) = .error .countWithoutTail := by decide

/-- Every row of spec/opcode_table.json, by its match word, and the command as the first step after reset. -/
theorem test_table_rows :
    [0x0, 0x1, 0x2, 0x3, 0x4, 0x5, 0x6, 0xF].map (decodeTableWord 64) =
      [some .nop, some .init, some .block, some (.tail 0), some .final, some .venc, some .compose, some .srst] := by
  decide

theorem test_first_step_after_reset_runs_the_word :
    nextOf (step (State.reset.withFetchWord 64 0x1)) =
      some { engine := { Engine.reset with phase := .absorb }, incoming := [], answers := [.ok] } := by decide

/-! ## One step of each command (95_test_vectors.md sections 2 and 3) -/

/-- Section 2.7: NOP from reset. -/
theorem test_nop : (after Engine.reset (issue .nop)).map Engine.status = some 0x0000 := by decide

/-- P4 line 3: INIT with the seed 0x9747b28c. -/
theorem test_init :
    (after { Engine.reset with seed := 0x9747b28c, len := 16 } (issue .init)).map
      (fun e => (e.h1, e.h2, e.len, e.status)) = some (0x9747b28c, 0x9747b28c, 0, 0x0001) := by decide

/-- P1 line 5: BLOCK. -/
theorem test_block :
    (after { absorbing with din0 := 0x0706050403020100, din1 := 0x0f0e0d0c0b0a0908 } (issue .block)).map
      (fun e => (e.h1, e.h2, e.len, e.status)) =
      some (0xdcac505ea5c458df, 0x72927c4be244042d, 16, 0x0001) := by decide

/-- P4 line 17: a second block, from accumulators that differ. -/
theorem test_block_second :
    (after { absorbing with h1 := 0xcbade51bba2ad59b, h2 := 0xf4ad221f484473d9, len := 16,
                            din0 := 0x1716151413121110, din1 := 0x1f1e1d1c1b1a1918 } (issue .block)).map
      (fun e => (e.h1, e.h2, e.len)) = some (0xb35bd889c967596a, 0xaeddd42b5058c91b, 32) := by decide

/-- P4 line 19: TAIL 1 with garbage above byte 0. -/
theorem test_tail_1 :
    (after { absorbing with h1 := 0xb35bd889c967596a, h2 := 0xaeddd42b5058c91b, len := 32,
                            din0 := 0xffffffffffffff20, din1 := 0x1f1e1d1c1b1a1918 } (issue (.tail 1))).map
      (fun e => (e.h1, e.h2, e.len, e.status)) =
      some (0xcd6c5e62de19cb05, 0xaeddd42b5058c91b, 33, 0x0002) := by decide

/-- Section 2.2, TAIL masking: TAIL 15 leaves out the last lane of DIN1. -/
theorem test_tail_15 :
    (after { absorbing with din0 := 0x8877665544332211, din1 := 0xffeeddccbbaa9988 } (issue (.tail 15))).map
      (fun e => (e.h1, e.h2, e.len)) = some (0x23fff40510305a70, 0x9440089558f948ce, 15) := by decide

/-- P4 line 21: FINAL of the 33-byte message. -/
theorem test_final :
    (after { tailed with h1 := 0xcd6c5e62de19cb05, h2 := 0xaeddd42b5058c91b, len := 33 } (issue .final)).map
      (fun e => (e.h1, e.h2, e.len, e.status)) =
      some (0xdd19c56102f480a2, 0x57dba1ef9f008a8f, 33, 0x0003) := by decide

/-- Section 2.7: FINAL in DONE faults. -/
theorem test_final_in_done : (after finished (issue .final)).map Engine.status = some 0x0213 := by decide

/-- Section 2.4: VENC of 300. -/
theorem test_venc_300 :
    (after (loaded 0 0 300) (issue .venc)).map (fun e => (e.vout0, e.vout1, e.status)) =
      some (0x2ac, 0, 0x2004) := by decide

/-- Section 2.4: VENC of 2^63. -/
theorem test_venc_top :
    (after (loaded 0 0 0x8000000000000000) (issue .venc)).map (fun e => (e.vout0, e.vout1, e.status)) =
      some (0x8080808080808080, 0x180, 0xa004) := by decide

/-- P2 line 8: COMPOSE. -/
theorem test_compose :
    (after ready (issue .compose)).map (fun e => (e.fp0, e.fp1, e.status)) =
      some (0x4610abe56eff5c01, 0x51622daa78f83583, 0x100f) := by decide

/-- Section 2.5, the row 2^56: an encoding of nine bytes reaches into FP1. -/
theorem test_compose_nine :
    (after { finished with h1 := 0x7766554433221100, h2 := 0xffeeddccbbaa9988, vout0 := 0x8080808080808080,
                           vout1 := 1, vlen := 9, vvalid := true } (issue .compose)).map (fun e => (e.fp0, e.fp1)) =
      some (0x8080808080808080, 0xffeeddccbbaa9901) := by decide

/-- P3 line 15: SRST with ERR = 1 clears DIN0 too. -/
theorem test_srst :
    after { faulted with din0 := 0x1122334455667788 } (issue .srst) = some Engine.reset := by decide

/-- P3 line 13: 0x1f is ignored with ERR = 1, and answered OK. -/
theorem test_sticky :
    after faulted (commandWrite 0x1f) = some faulted ∧ answered faulted (commandWrite 0x1f) = some [.ok] := by decide

/-- Section 2.7: the faults from reset, by STATUS. -/
theorem test_faults_from_reset :
    [0x02, 0x03, 0x04, 0x06, 0x07, 0x11, 0x100].map (fun w => (after Engine.reset (commandWrite w)).map Engine.status) =
      [some 0x0210, some 0x0210, some 0x0210, some 0x0310, some 0x0110, some 0x0110, some 0x0110] := by decide

/-! ## The port (section 2.7) -/

theorem test_access_errors :
    [HostEvent.memRead 0x00 8, .memWrite 0x08 8 5, .memWrite 0x18 8 5, .memRead 0x68 8, .memRead 0x0c 8,
      .memRead 0x08 4, .memWrite 0x00 4 1, .memRead 0x80 8].map (answered Engine.reset) =
      List.replicate 8 (some [.err]) := by decide

theorem test_four_byte_command_write_has_no_effect :
    after Engine.reset (.memWrite 0x00 4 1) = some Engine.reset := by decide

theorem test_seed_ignores_the_upper_bits :
    (after Engine.reset (.memWrite 0x10 8 0xffffffff9747b28c)).map (fun e => answered e (rd .seed)) =
      some (some [.okData 0x9747b28c]) := by decide

theorem test_status_is_read_whole :
    answered { ready with fpvalid := true, err := true, ecode := 2, vlen := 10 } (rd .status) =
      some [.okData 0xa21f] := by decide

/-! ## The pure functions (sections 2.1, 2.4 to 2.6) -/

theorem test_rotl64 :
    rotl64 0x0123456789abcdef 27 = 0x3c4d5e6f78091a2b ∧ rotl64 0x0123456789abcdef 33 = 0x13579bde02468acf := by decide

theorem test_mix :
    mixK1 0x0123456789abcdef = 0xe7d7c9c5f3d28bf1 ∧ mixK2 0x0123456789abcdef = 0x839e380db8a75867 := by decide

theorem test_fmix64 : fmix64 0x0123456789abcdef = 0x87cbfbfe89022cea := by decide

theorem test_varint_bytes : varint 131072 = [0x80, 0x80, 0x08] := by decide

theorem test_reference_hash_of_17_bytes :
    murmur3 ((List.range 17).map (BitVec.ofNat 8)) 0x9747b28c =
      [0x48, 0xca, 0xd1, 0x23, 0x96, 0x3e, 0xf0, 0x4b, 0xec, 0xfe, 0x86, 0xc1, 0x35, 0x6d, 0xb4, 0xcd] := by decide

/-- 93_implementation_defined.md U1: a prefix longer than 16 bytes is refused. -/
theorem test_compose_refuses_a_long_prefix : compose (List.replicate 17 1) (List.replicate 16 2) = none := by decide

theorem test_driver_prefix :
    driverPrefix 20 = [0x1f, 0x20, 0x23, 0x28, 0x2f, 0x38, 0x43, 0x50, 0x5f, 0x70, 0x83, 0x98, 0xaf, 0xc8, 0xe3,
      0x00, 0x1f, 0x40, 0x63, 0x88] := by decide

/-- Section 2.6, the driver's prefix of 17 bytes. -/
theorem test_fingerprint_of_17_bytes :
    fingerprintOf (driverPrefix 17) = some [0x11, 0xb1, 0xb5, 0x08, 0xc1, 0x89, 0xdb, 0xe4, 0xda, 0x4f, 0x68, 0x12,
      0xb2, 0xa3, 0x26, 0x98] := by decide

/-! ## Witnesses: what meets the hypotheses of each statement -/

/-- DecodeOfEncodeIsIdentity, PhaseFollowsTheTable: both ends of the count. -/
theorem witness_wf : Instr.nop.wf = true ∧ (Instr.tail 0).wf = true ∧ (Instr.tail 15).wf = true := by decide

/-- DecodedWordIsTheCommandsWord. -/
theorem witness_decoded_word : decode 0xF3 = .ok (.tail 15) ∧ decode 0x0F = .ok .srst := by decide

/-- WordsSelectCommandsByMatchAndMask: the count clause and the first word above the commands. -/
theorem witness_match_and_mask :
    (15 : Nat) ≤ 15 ∧ 256 ≤ (0x100 : Word).toNat ∧ (0xF3 : Word) &&& 0xFFFFFFFFFFFFFF0F = 0x3 := by decide

/-- IllegalWordsRaiseIllegalCmd: each condition of R74 at its bounds, and words that are not illegal. -/
theorem witness_illegal_word :
    State.reset.engine.err = false ∧ IllegalWord 0x100 ∧ IllegalWord 0x8000000000000001 ∧ IllegalWord 0x07 ∧
    IllegalWord 0x0E ∧ IllegalWord 0x10 ∧ IllegalWord 0xFF ∧ ¬ IllegalWord 0xF3 ∧ ¬ IllegalWord 0x0F ∧
    ¬ IllegalWord 0x00 := by unfold IllegalWord; decide

/-- StepRunsTheDecodedCommand. -/
theorem witness_step_runs :
    decode 0x13 = .ok (.tail 1) ∧ (start absorbing [.memWrite 0x00 8 0x13]).incoming = [.memWrite 0x00 8 0x13] := by
  decide

/-- EveryHostOperationIsAnsweredOnce, AccessFaultsAnswerErrAndChangeNothing, EngineNeverActsOnItsOwn: each kind of
event, legal and not, and none. -/
theorem witness_events :
    (start absorbing [.memRead 0x08 8]).incoming = [.memRead 0x08 8] ∧
    (start absorbing [.memRead 0x00 8]).incoming = [.memRead 0x00 8] ∧
    (start absorbing [.memWrite 0x10 8 1]).incoming = [.memWrite 0x10 8 1] ∧
    (start absorbing [.memWrite 0x60 8 1, .reset]).incoming = [.memWrite 0x60 8 1, .reset] ∧
    (start absorbing [.reset]).incoming = [.reset] ∧ (start absorbing []).incoming = [] := by decide

/-- AccessIsLegalExactlyAsListed: a legal access at each end, and each ground for ERR at its bounds. -/
theorem witness_access :
    LegalAccess .read 0x08 8 ∧ LegalAccess .read 0x60 8 ∧ LegalAccess .write 0x00 8 ∧ LegalAccess .write 0x40 8 ∧
    ¬ LegalAccess .read 0x00 8 ∧ ¬ LegalAccess .write 0x08 8 ∧ ¬ LegalAccess .write 0x60 8 ∧
    ¬ LegalAccess .read 0x08 7 ∧ ¬ LegalAccess .read 0x08 9 ∧ ¬ LegalAccess .write 0x01 8 ∧
    ¬ LegalAccess .read 0x68 8 ∧ ¬ LegalAccess .read 0x78 8 ∧ ¬ LegalAccess .write 0x80 8 := by
  unfold LegalAccess; decide

/-- AccessIsLegalExactlyAsListed: the tests in their order. -/
theorem witness_access_order :
    (7 : Nat) ≠ 8 ∧ 0x0F % 8 ≠ 0 ∧ 0x68 % 8 = 0 ∧
    0x68 ∉ [0x00, 0x08, 0x10, 0x18, 0x20, 0x28, 0x30, 0x38, 0x40, 0x48, 0x50, 0x58, 0x60] := by decide

/-- LegalReadAnswersTheRegister: its last clause reads from a state it answered. -/
theorem witness_read_twice :
    nextOf (memRead 0x60 8 (start ready [])) = some { start ready [] with answers := [.okData 0] } := by decide

/-- ReadAfterWriteAtThePort: each of the four registers, and another one. -/
theorem witness_written_registers :
    (Reg.seed ∈ [Reg.seed, .din0, .din1, .vin] ∧ Reg.vin ∈ [Reg.seed, .din0, .din1, .vin]) ∧
    Reg.status ≠ Reg.seed ∧ Reg.vin ≠ Reg.seed := by decide

/-- ReadableRegistersExposeTheEngine: two engines that answer alike. -/
theorem witness_readable :
    ∀ off ∈ [0x08, 0x10, 0x18, 0x20, 0x28, 0x30, 0x38, 0x40, 0x48, 0x50, 0x58, 0x60],
      readAnswer off 8 (softReset ready) = readAnswer off 8 Engine.reset := by decide

/-- NopLeavesEveryState: both ends of the illegal counts. -/
theorem witness_nop_counts : ((1 : Nat) ≤ 1 ∧ (1 : Nat) ≤ 15) ∧ ((1 : Nat) ≤ 15 ∧ (15 : Nat) ≤ 15) := by decide

/-- InitOpensAMessage, VencEncodesVin (ERR = 0), BlockAbsorbsSixteenBytes, TailAbsorbsTheFirstBytes,
FinalFinalizesTheMessage: a state in each phase with ERR = 0, and the seed 0. -/
theorem witness_phases :
    ((start Engine.reset []).engine.err = false ∧ (start Engine.reset []).engine.phase = .idle ∧
      (start Engine.reset []).engine.seed = 0) ∧
    ((start absorbing []).engine.err = false ∧ (start absorbing []).engine.phase = .absorb) ∧
    ((start tailed []).engine.err = false ∧ (start tailed []).engine.phase = .tailed) ∧
    ((start finished []).engine.err = false ∧ (start finished []).engine.phase = .done) := by decide

/-- TailAbsorbsTheFirstBytes: other data registers that carry the same first bytes, for the counts 0, 8 and 15. -/
theorem witness_same_tail :
    (bytesOfPair 1 2).take 0 = (bytesOfPair 3 4).take 0 ∧ (bytesOfPair 1 2).take 8 = (bytesOfPair 1 4).take 8 ∧
    (bytesOfPair 1 0x0100000000000002).take 15 = (bytesOfPair 1 2).take 15 := by decide

/-- FinalFinalizesTheMessage, ComposeOverlaysTheEncoding, EveryStepKeepsTheInvariants: states that meet the invariant, in
ABSORB and TAILED. -/
theorem witness_inv_absorbing : absorbing.Inv ∧ tailed.Inv := by constructor <;> constructor <;> decide

/-- ComposeOverlaysTheEncoding: the invariant with an encoding of 8 bytes. -/
theorem witness_inv_eight :
    (encodeVin (loaded 0 0 0x00FFFFFFFFFFFFFF)).Inv ∧ (encodeVin (loaded 0 0 0x00FFFFFFFFFFFFFF)).vlen = 8 := by
  constructor
  · constructor <;> decide
  · decide

/-- ComposeOverlaysTheEncoding: the invariant with an encoding of 9 bytes. -/
theorem witness_inv_nine :
    (encodeVin (loaded 0 0 0x0100000000000000)).Inv ∧ (encodeVin (loaded 0 0 0x0100000000000000)).vlen = 9 := by
  constructor
  · constructor <;> decide
  · decide

/-- ComposeOverlaysTheEncoding: the invariant with an encoding of 10 bytes. -/
theorem witness_inv_ten :
    (encodeVin (loaded 0 0 0x8000000000000000)).Inv ∧ (encodeVin (loaded 0 0 0x8000000000000000)).vlen = 10 := by
  constructor
  · constructor <;> decide
  · decide

/-- ComposeOverlaysTheEncoding: ready to compose; and the two grounds for E_NOT_READY. -/
theorem witness_compose :
    (ready.err = false ∧ ready.phase = .done ∧ ready.vvalid = true ∧ ready.h1 = 0x4610abe56eff5cb5 ∧
      ready.h2 = 0x51622daa78f83583 ∧ ready.vout0 = 0x01 ∧ ready.vlen = 1) ∧
    (finished.err = false ∧ finished.vvalid = false) ∧ (absorbing.err = false ∧ absorbing.phase ≠ .done) := by decide

/-- ComposeCompletesWheneverReady: ready to compose in a state that meets the invariant. -/
theorem witness_ready : ready.Inv ∧ ready.err = false ∧ ready.phase = .done ∧ ready.vvalid = true := by
  refine ⟨?_, by decide⟩
  constructor <;> decide

/-- ComposeCompletesWheneverReady: the same with the longest encoding, that of 2^64 - 1. -/
theorem witness_ready_longest :
    (encodeVin { ready with vin := 0xFFFFFFFFFFFFFFFF }).Inv ∧
    (encodeVin { ready with vin := 0xFFFFFFFFFFFFFFFF }).err = false ∧
    (encodeVin { ready with vin := 0xFFFFFFFFFFFFFFFF }).phase = .done ∧
    (encodeVin { ready with vin := 0xFFFFFFFFFFFFFFFF }).vvalid = true ∧
    (encodeVin { ready with vin := 0xFFFFFFFFFFFFFFFF }).vlen = 10 := by
  refine ⟨?_, by decide⟩
  constructor <;> decide

/-- ComposeOverlaysTheEncoding: the lengths at its bounds. -/
theorem witness_compose_lengths :
    (1 ≤ ready.vlen.toNat ∧ ready.vlen.toNat ≤ 10) ∧
    (1 ≤ { ready with vlen := 10 : Engine }.vlen.toNat ∧ { ready with vlen := 10 : Engine }.vlen.toNat ≤ 10) := by
  decide

/-- EveryRegisterReadsZeroAfterReset, ResetClearsEveryElement: a reset of an engine that holds something. -/
theorem witness_reset :
    (start ready [.reset]).incoming = [.reset] ∧
    nextOf (step (start ready [.reset])) = some (start Engine.reset []) ∧ ready ≠ Engine.reset := by decide

/-- EveryStepKeepsTheInvariants: FPVALID = 1, so that invariant (d) says something. -/
theorem witness_inv_composed : (composeFingerprint ready).Inv ∧ (composeFingerprint ready).fpvalid = true := by
  constructor
  · constructor <;> decide
  · decide

/-- VencEncodesVin: the values of its examples, and an index in each of its three ranges. -/
theorem witness_venc :
    (loaded 0 0 0).vin = 0 ∧ (loaded 0 0 0xFFFFFFFFFFFFFFFF).vin = 0xFFFFFFFFFFFFFFFF ∧
    (loaded 0 0 16384).vin = 16384 ∧ 0 + 1 < (encodeVin (loaded 0 0 300)).vlen.toNat ∧
    1 + 1 = (encodeVin (loaded 0 0 300)).vlen.toNat := by decide

/-- SrstResetsTheEngine, StickyFaultIgnoresEveryOtherWord, OnlySrstOrResetClearsErr: ERR = 1. -/
theorem witness_faulted :
    faulted.err = true ∧ (0x1F : Word) ≠ 0x0F ∧
    (start faulted [.memWrite 0x00 8 0x1F]).incoming = [.memWrite 0x00 8 0x1F] ∧
    (start faulted [wr .vin 7]).incoming = [wr .vin 7] ∧ (start faulted [rd .status]).incoming = [rd .status] := by
  decide

/-- OnlySrstOrResetClearsErr, SrstResetsTheEngine: a step of each alternative. -/
theorem witness_faulted_steps :
    nextOf (step (start faulted [issue .init])) = some { start faulted [] with answers := [.ok] } ∧
    nextOf (step (start faulted [issue .srst])) = some { start Engine.reset [] with answers := [.ok] } ∧
    nextOf (step (start faulted [.reset])) = some (start Engine.reset []) := by decide

/-- EachElementIsWrittenOnlyAsTabulated: H1, H2 and LEN change. -/
theorem witness_written_by_block :
    (after absorbing (issue .block)).map (fun f =>
      decide (f.h1 ≠ absorbing.h1 ∧ f.h2 ≠ absorbing.h2 ∧ f.len ≠ absorbing.len)) = some true := by decide

/-- EachElementIsWrittenOnlyAsTabulated: SEED, DIN0, DIN1 and VIN change. -/
theorem witness_written_by_the_host :
    (after absorbing (wr .seed 1)).map Engine.seed = some 1 ∧ (after absorbing (wr .din0 1)).map Engine.din0 = some 1 ∧
    (after absorbing (wr .din1 1)).map Engine.din1 = some 1 ∧ (after absorbing (wr .vin 1)).map Engine.vin = some 1 := by
  decide

/-- EachElementIsWrittenOnlyAsTabulated: the two grounds of a command fault. -/
theorem witness_fault_grounds :
    IllegalWord 0x100 ∧ Instr.block.wf = true ∧ encode .block = 0x02 ∧ ¬ legalInPhase .block Engine.reset := by
  unfold IllegalWord legalInPhase; decide

/-- EachElementIsWrittenOnlyAsTabulated: the output of VENC, of COMPOSE, the phase, ERR and ECODE change. -/
theorem witness_written_by_the_rest :
    (after (loaded 0 0 0x8000000000000000) (issue .venc)).map (fun f =>
      decide (f.vout0 ≠ 0 ∧ f.vout1 ≠ 0 ∧ f.vlen ≠ 0 ∧ f.vvalid ≠ false)) = some true ∧
    (after ready (issue .compose)).map (fun f => decide (f.fp0 ≠ 0 ∧ f.fp1 ≠ 0 ∧ f.fpvalid ≠ false)) = some true ∧
    (after Engine.reset (issue .init)).map Engine.phase = some .absorb ∧
    (after Engine.reset (issue .block)).map (fun f => (f.err, f.ecode)) = some (true, 2) := by decide

/-- DataNeverFaults: two states that agree where it asks and differ in their data. -/
theorem witness_data :
    (start absorbing []).engine.phase = (start { absorbing with h1 := 1, din0 := 2, seed := 3 } []).engine.phase ∧
    (start absorbing []).engine.ecode = (start { absorbing with h1 := 1, din0 := 2, seed := 3 } []).engine.ecode ∧
    start absorbing [] ≠ start { absorbing with h1 := 1, din0 := 2, seed := 3 } [] := by decide

/-- InputRegistersAreSampledOnlyByTheirCommand: a command in each clause. -/
theorem witness_sampling_commands :
    Instr.venc ≠ .srst ∧ Instr.venc ≠ .init ∧ Instr.init ≠ .venc ∧ Instr.final ≠ .block ∧ ∀ n, Instr.final ≠ .tail n := by
  refine ⟨by decide, by decide, by decide, by decide, fun n => by intro h; cases h⟩

/-- VencCommutesWithTheHashCommands: each command where it is legal. -/
theorem witness_venc_commutes :
    legalInPhase .nop finished ∧ legalInPhase .init finished ∧ legalInPhase .block absorbing ∧
    legalInPhase (.tail 15) absorbing ∧ legalInPhase .final absorbing ∧ legalInPhase .final tailed :=
  ⟨trivial, trivial, rfl, rfl, .inl rfl, .inr rfl⟩

/-- EveryStepKeepsTheEngineMeaningful: an engine in ABSORB that has absorbed the sixteen bytes 00 .. 0f with seed 0
(95_test_vectors.md section 2.2, after BLOCK 0). -/
theorem witness_meaningful_absorbing :
    { absorbing with h1 := 0xdcac505ea5c458df, h2 := 0x72927c4be244042d, len := 16 : Engine }.Meaningful
      { History.fresh with message := (List.range 16).map (BitVec.ofNat 8) } where
  idle h := by cases h
  absorbing _ := by decide
  tailed h := by cases h
  counted _ := by decide
  finished h := by cases h
  valid := rfl
  encoded v h := by cases h
  composed h := by cases h

/-- The relation can fail: accumulators that are not those of the history's blocks. -/
theorem witness_not_meaningful : ¬ { absorbing with h1 := 1 : Engine }.Meaningful History.fresh := by
  intro h
  exact absurd (h.absorbing rfl).2 (by decide)

/-- EveryStepKeepsTheEngineMeaningful: a digest, an encoding and a fingerprint, those of the one byte 00 (P2). -/
theorem witness_meaningful_composed :
    (composeFingerprint { ready with len := 1 }).Meaningful
      { History.fresh with message := [0], value := some 1 } where
  idle h := by cases h
  absorbing h := by cases h
  tailed h := by cases h
  counted _ := by decide
  finished _ _ := by decide
  valid := rfl
  encoded v h := by
    obtain rfl := Option.some.inj h
    decide
  composed _ := ⟨by decide, 1, rfl, fun _ => by decide⟩

/-- History.after: what each kind of step adds, with ERR = 0 and with ERR = 1. -/
theorem test_history :
    History.fresh.after (issue .block) { absorbing with din0 := 0x0706050403020100, din1 := 0x0f0e0d0c0b0a0908 } =
      { History.fresh with message := (List.range 16).map (BitVec.ofNat 8) } ∧
    History.fresh.after (issue (.tail 3)) { absorbing with din0 := 0x0706050403020100 } =
      { History.fresh with message := [0, 1, 2] } ∧
    History.fresh.after (issue .block) tailed = History.fresh ∧
    { History.fresh with message := [1] }.after (issue .init) { finished with seed := 7 } =
      { History.fresh with seed := 7 } ∧
    { History.fresh with message := [1] }.after (issue .init) faulted = { History.fresh with message := [1] } := by
  decide

/-- The two theorems on every step: a step there is. -/
theorem witness_step_of_inv :
    nextOf (step (start absorbing [issue .final])) = some { start finished [] with answers := [.ok] } := by decide

/-- RotationMovesEveryBitLeft: both ends of the count and of the bits. -/
theorem witness_rotation : ((0 : Nat) < 1 ∧ (1 : Nat) < 64) ∧ ((0 : Nat) < 63 ∧ (63 : Nat) < 64) := by decide

/-- TailWordsAreTheTailBytes: the counts where its clauses meet. -/
theorem witness_tail_counts : ((0 : Nat) ≤ 15 ∧ (8 : Nat) ≤ 8) ∧ ((8 : Nat) ≤ 15 ∧ (15 : Nat) ≤ 15) := by decide

/-- RegistersAreLittleEndian: eight bytes, and none. -/
theorem witness_bytes : ([1, 2, 3, 4, 5, 6, 7, 8] : List Byte).length = 8 ∧ ([] : List Byte).length ≤ 8 := by decide

/-- VarintRunsItsLoop: the values where its clauses meet, an index of the last byte and one before it, and the only value
whose encoding ends in 0. -/
theorem witness_varint_loop :
    128 ≤ (128 : Word).toNat ∧ (127 : Word).toNat < 128 ∧ 0 + 1 < (varint 128).length ∧ 1 < (varint 128).length ∧
    (varint 0).getLastD 0 = 0 := by decide

/-- VarintLengthByRange: the first and the last value of the shortest and of the longest length. -/
theorem witness_varint_length :
    (varint 0).length = 1 ∧ (varint 127).length = 1 ∧ (varint 128).length = 2 ∧
    (varint 0x7FFFFFFFFFFFFFFF).length = 9 ∧ (varint 0x8000000000000000).length = 10 ∧
    (varint 0xFFFFFFFFFFFFFFFF).length = 10 := by decide

/-- VarintDecodesAndIsPrefixFree. -/
theorem witness_varint_prefix : varint 300 <+: varint 300 := List.prefix_refl _

/-- ComposeReplacesTheLeadingBytes: the shortest and the longest encoding. -/
theorem witness_compose_bytes :
    1 ≤ (varint 0).length ∧ (varint 0).length ≤ 10 ∧ 1 ≤ (varint 0xFFFFFFFFFFFFFFFF).length ∧
    (varint 0xFFFFFFFFFFFFFFFF).length ≤ 10 ∧ (bytesOfPair 1 2).length = 16 := by decide

/-- ReferenceHashFacts: both ends of the count, and two different arguments of the finalization that agree as it asks. -/
theorem witness_hash_facts :
    ((0 : Nat) ≤ 15 ∧ (15 : Nat) ≤ 15) ∧ (0 : Word) ^^^ 1 = 1 ^^^ 0 ∧ (0 : Word) ≠ 1 := by decide

/-- EqualLengthFingerprintsAgreeOnTheKeptBytes: two inputs of one length, and an index of a kept byte at each end. -/
theorem witness_equal_lengths :
    ([0] : List Byte).length = ([1] : List Byte).length ∧ (varint 1).length ≤ 1 ∧ (varint 1).length ≤ 15 := by decide

/-- HashSequenceComputesTheReferenceHash, FingerprintSequenceComputesTheFingerprint: a message with a tail, one of whole
blocks and the empty one. -/
theorem witness_messages :
    (List.replicate 17 (0 : Byte)).length < 2 ^ 64 ∧ (List.replicate 16 (0 : Byte)).length % 16 = 0 ∧
    ([] : List Byte).length % 16 = 0 ∧ State.reset.engine.err = false := by decide

/-- FingerprintsOfDifferentLengthsDiffer. -/
theorem witness_lengths :
    ([] : List Byte).length < 2 ^ 64 ∧ ([0] : List Byte).length < 2 ^ 64 ∧
    ([] : List Byte).length ≠ ([0] : List Byte).length := by decide

/-- UnsampledBytesDoNotMatter: the zero buffer of T bytes and the same with byte 40 000 set, the source's scenario S4. -/
theorem witness_unsampled :
    let b : List Byte := List.replicate 131072 0
    let b' : List Byte := b.set 40000 1
    b.length = b'.length ∧ 131072 ≤ b.length ∧ b ≠ b' ∧
    ∀ i, i < b.length →
      (i < 16384 ∨ (b.length / 2 - 8192 ≤ i ∧ i < b.length / 2 - 8192 + 16384) ∨ b.length - 16384 ≤ i) →
      b[i]? = b'[i]? := by
  intro b b'
  have hl : b.length = 131072 := List.length_replicate
  refine ⟨(List.length_set ..).symm, hl.ge, ?_, ?_⟩
  · intro h
    have h' : b[40000]? = b'[40000]? := by rw [← h]
    rw [List.getElem?_set_self (by rw [hl]; decide), List.getElem?_replicate, if_pos (by decide)] at h'
    exact absurd h' (by decide)
  · intro i _ hr
    rw [hl] at hr
    exact (List.getElem?_set_ne (by omega)).symm

/-- SampleIsTheInputOrThreeRanges: the lengths on both sides of the threshold, and an index. -/
theorem witness_sample :
    (List.replicate 131071 (0 : Byte)).length < 131072 ∧ 131072 ≤ (List.replicate 131072 (0 : Byte)).length ∧
    (16383 : Nat) < 16384 := by
  rw [List.length_replicate, List.length_replicate]; decide

end Sys2Proof.Tests.Slice0
end

section
/-! PROOF. The host port (20_memory.md R53 to R55): which accesses are legal, what each legal read answers, and what each
legal write stores. -/

namespace Sys2Proof.Machine

/-! ## Registers by their offset -/

/-- Every register lies at one of the thirteen offsets of R51. -/
theorem Reg.offset_mem (r : Reg) :
    r.offset ∈ [0x00, 0x08, 0x10, 0x18, 0x20, 0x28, 0x30, 0x38, 0x40, 0x48, 0x50, 0x58, 0x60] := by
  cases r <;> decide

theorem Reg.offset_aligned (r : Reg) : r.offset % 8 = 0 := by cases r <;> rfl

/-- Reduces "a register with property `p` lies at `off`" to a test that computes. -/
theorem Reg.exists_offset_of_any {off : Nat} {p : Reg → Bool} (h : (Reg.ofOffset? off).any p = true) :
    ∃ r : Reg, off = r.offset ∧ p r = true := by
  obtain ⟨r, hr, hp⟩ := (Option.any_eq_true _ _).1 h
  exact ⟨r, Reg.offset_of_ofOffset? hr, hp⟩

/-- The offsets of R175 (e) are those of read-only registers. -/
theorem readOnly_register_of_offset {off : Nat} (h : off ∈ [0x08, 0x18, 0x30, 0x38, 0x48, 0x50, 0x58, 0x60]) :
    ∃ r : Reg, off = r.offset ∧ r.writable = false := by
  have computed : ∀ o ∈ [0x08, 0x18, 0x30, 0x38, 0x48, 0x50, 0x58, 0x60],
      (Reg.ofOffset? o).any (fun r => !r.writable) = true := by decide
  obtain ⟨r, hoff, hr⟩ := Reg.exists_offset_of_any (computed off h)
  exact ⟨r, hoff, by simpa using hr⟩

/-! ## The access check: one equation per outcome -/

theorem checkAccess_size (kind : AccessKind) (off : Nat) {n : Nat} (hn : n ≠ 8) :
    checkAccess kind off n = .error .size := by
  simp [checkAccess, hn]

theorem checkAccess_misaligned (kind : AccessKind) {off : Nat} (ha : off % 8 ≠ 0) :
    checkAccess kind off 8 = .error .misaligned := by
  simp [checkAccess, ha]

theorem checkAccess_noRegister (kind : AccessKind) {off : Nat} (ha : off % 8 = 0)
    (ho : off ∉ [0x00, 0x08, 0x10, 0x18, 0x20, 0x28, 0x30, 0x38, 0x40, 0x48, 0x50, 0x58, 0x60]) :
    checkAccess kind off 8 = .error .noRegister := by
  have hnone : Reg.ofOffset? off = none := by
    cases hr : Reg.ofOffset? off with
    | none => rfl
    | some r => exact absurd (Reg.offset_of_ofOffset? hr ▸ r.offset_mem) ho
  simp [checkAccess, ha, hnone]

theorem checkAccess_noRight {kind : AccessKind} {r : Reg} (hr : r.allows kind = false) :
    checkAccess kind r.offset 8 = .error .noRight := by
  simp [checkAccess, r.offset_aligned, Reg.ofOffset?_offset, hr]

theorem checkAccess_allowed {kind : AccessKind} {r : Reg} (hr : r.allows kind = true) :
    checkAccess kind r.offset 8 = .ok r :=
  (checkAccess_ok_iff kind r.offset 8 r).2 ⟨rfl, rfl, hr⟩

/-! ## The formula of R53 -/

/-- The listed offsets are those of the registers whose right allows the access. -/
theorem legalAccess_iff_register (kind : AccessKind) (off n : Nat) :
    LegalAccess kind off n ↔ ∃ r : Reg, n = 8 ∧ off = r.offset ∧ r.allows kind = true := by
  constructor
  · rintro ⟨hn, -, listed⟩
    have computed : (Reg.ofOffset? off).any (·.allows kind) = true := by
      revert off
      cases kind <;> decide
    obtain ⟨r, hoff, hr⟩ := Reg.exists_offset_of_any computed
    exact ⟨r, hn, hoff, hr⟩
  · rintro ⟨r, hn, rfl, hr⟩
    refine ⟨hn, r.offset_aligned, ?_⟩
    revert hr
    cases kind <;> cases r <;> decide

theorem checkAccess_passes_iff_legal (kind : AccessKind) (off n : Nat) :
    (∃ r, checkAccess kind off n = .ok r) ↔ LegalAccess kind off n := by
  simp only [checkAccess_ok_iff, legalAccess_iff_register]

theorem checkAccess_error_of_not_legal {kind : AccessKind} {off n : Nat} (h : ¬ LegalAccess kind off n) :
    ∃ f, checkAccess kind off n = .error f := by
  cases hc : checkAccess kind off n with
  | error f => exact ⟨f, rfl⟩
  | ok r => exact absurd ((checkAccess_passes_iff_legal kind off n).1 ⟨r, hc⟩) h

/-! ## Reads and writes at the port -/

theorem memRead_of_not_legal {off n : Nat} (s : State) (h : ¬ LegalAccess .read off n) :
    memRead off n s = .next (s.answer .err) := by
  obtain ⟨f, hf⟩ := checkAccess_error_of_not_legal h
  simp [memRead, readAnswer, hf]

theorem memWrite_of_not_legal {off n : Nat} (v : BitVec (8 * n)) (s : State) (h : ¬ LegalAccess .write off n) :
    memWrite off n v s = .next (s.answer .err) := by
  obtain ⟨f, hf⟩ := checkAccess_error_of_not_legal h
  simp [memWrite, hf]

/-- A register that has a value answers it (R54). -/
theorem memRead_register (s : State) {r : Reg} {v : Word} (h : readReg r s.engine = some v) :
    memRead r.offset 8 s = .next (s.answer (.okData v)) := by
  have readable : r.allows .read = true := by
    cases r with
    | cmd => cases h
    | _ => rfl
  simp [memRead, readAnswer, checkAccess_allowed readable, h]

/-- A read leaves the engine, so the same read of the state it answered gives the same answer (R54). -/
theorem memRead_idempotent (off n : Nat) {s t : State} (h : memRead off n s = .next t) :
    memRead off n t = .next (t.answer (readAnswer off n s.engine)) := by
  obtain rfl : s.answer (readAnswer off n s.engine) = t := Host.Outcome.next.inj h
  rfl

theorem memWrite_writable {r : Reg} (v : Word) (s : State) (hr : r.writable = true) :
    memWrite r.offset 8 v s = writeRegister r v s := by
  simp [memWrite, checkAccess_allowed (kind := .write) hr]

/-! ## The obligations -/

/-- Settles O10: an access passes exactly at a register's offset with the right, each test has its own equation, and an
access that fails one answers ERR. -/
theorem accessIsLegalExactlyAsListed : Obligations.AccessIsLegalExactlyAsListed := by
  refine ⟨fun kind off n => ⟨checkAccess_passes_iff_legal kind off n, checkAccess_size kind off, ?_, ?_, ?_, ?_⟩,
    fun off n s h => memRead_of_not_legal s h, fun off n v s h => memWrite_of_not_legal v s h⟩
  · rintro rfl ha
    exact checkAccess_misaligned kind ha
  · rintro rfl ha ho
    exact checkAccess_noRegister kind ha ho
  · rintro rfl rfl
    exact checkAccess_noRight (r := .cmd) rfl
  · rintro ho rfl
    obtain ⟨r, rfl, hr⟩ := readOnly_register_of_offset ho
    exact checkAccess_noRight hr

/-- Settles O14: a legal write is `writeRegister` of its register, and a command always answers a next state. -/
theorem legalWriteStoresOnlyItsRegister : Obligations.LegalWriteStoresOnlyItsRegister := by
  intro s v
  refine ⟨?seed, memWrite_writable (r := .din0) v s rfl, memWrite_writable (r := .din1) v s rfl,
    memWrite_writable (r := .vin) v s rfl, ?cmd⟩
  case seed =>
    rw [← BitVec.setWidth_eq_extractLsb' (by decide)]
    exact memWrite_writable (r := .seed) v s rfl
  case cmd =>
    have hw := writeCommand_eq v s
    refine ⟨_, hw, (memWrite_writable (r := .cmd) v s rfl).trans ?_⟩
    simp only [writeRegister, hw, onNext_next, State.answer]

/-- Settles O12: each readable register answers its value, and a read is answered from an engine that it leaves. -/
theorem legalReadAnswersTheRegister : Obligations.LegalReadAnswersTheRegister := by
  intro s
  exact ⟨memRead_register s (r := .status) rfl, memRead_register s (r := .seed) rfl,
    memRead_register s (r := .len) rfl, memRead_register s (r := .din0) rfl, memRead_register s (r := .din1) rfl,
    memRead_register s (r := .h1) rfl, memRead_register s (r := .h2) rfl, memRead_register s (r := .vin) rfl,
    memRead_register s (r := .vout0) rfl, memRead_register s (r := .vout1) rfl,
    memRead_register s (r := .fp0) rfl, memRead_register s (r := .fp1) rfl,
    fun off n => ⟨readAnswer off n s.engine, rfl, fun _ => memRead_idempotent off n⟩⟩

end Sys2Proof.Machine
end

section
/-! PROOF. The command word (30_encoding.md R70 to R75): which words decode to which command, which are illegal, and
what a write of any word to CMD does. -/

namespace Sys2Proof

/-! ## Decoding by numbers -/

theorem withoutCount_eq_ok_iff (n : BitVec 4) (i j : Instr) : withoutCount n i = .ok j ↔ n = 0 ∧ i = j := by
  unfold withoutCount
  split
  case isTrue hn => simp [hn]
  case isFalse hn => exact ⟨nofun, fun h => absurd h.1 hn⟩

/-- The two fields decode to a command exactly when they hold its opcode and its count. -/
theorem decodeOp_eq_ok_iff (op n : BitVec 4) (i : Instr) :
    decodeOp op n = .ok i ↔ i.wf = true ∧ op.toNat = i.opcode ∧ n.toNat = i.count := by
  constructor
  · intro h
    unfold decodeOp at h
    split at h
    case h_4 hop =>
      obtain rfl := Except.ok.inj h
      exact ⟨decide_eq_true (by omega), hop, rfl⟩
    case h_9 => cases h
    all_goals
      obtain ⟨rfl, rfl⟩ := (withoutCount_eq_ok_iff _ _ _).1 h
      exact ⟨rfl, ‹_›, rfl⟩
  · rintro ⟨-, hop, hn⟩
    cases i with
    | tail k =>
      simp only [Instr.opcode, Instr.count] at hop hn
      simp [decodeOp, hop, hn]
    | _ =>
      obtain rfl : n = 0 := BitVec.eq_of_toNat_eq hn
      simp only [Instr.opcode] at hop
      simp [decodeOp, hop, withoutCount]

theorem Instr.opcode_lt (i : Instr) : i.opcode < 16 := by
  simp only [Instr.opcode]
  split <;> decide

theorem Instr.count_lt {i : Instr} (h : i.wf = true) : i.count < 16 := by
  cases i with
  | tail n => exact Nat.lt_succ_of_le (of_decide_eq_true h)
  | _ => exact Nat.zero_lt_succ 15

/-- A word decodes to a command exactly when its number is the opcode and, above it, the count (R70, R71). -/
theorem decode_eq_ok_iff_toNat (w : Word) (i : Instr) :
    decode w = .ok i ↔ i.wf = true ∧ w.toNat = i.opcode + 16 * i.count := by
  have hop := i.opcode_lt
  rcases Nat.lt_or_ge w.toNat 256 with hw | hw
  · rw [decode_of_lt hw, decodeOp_eq_ok_iff, opField_toNat, countField_toNat]
    refine and_congr_right fun hwf => ?_
    have hcount := Instr.count_lt hwf
    omega
  · rw [decode_of_ge hw]
    refine ⟨nofun, fun ⟨hwf, h⟩ => ?_⟩
    have hcount := Instr.count_lt hwf
    omega

/-- The fields of a command's word: the upper bits zero, its opcode, its count. -/
theorem fields_of_decode {w : Word} {i : Instr} (h : decode w = .ok i) :
    w.toNat / 256 = 0 ∧ w.toNat % 16 = i.opcode ∧ w.toNat / 16 % 16 = i.count := by
  obtain ⟨hwf, hw⟩ := (decode_eq_ok_iff_toNat w i).1 h
  have hop := i.opcode_lt
  have hcount := Instr.count_lt hwf
  omega

/-- The decoder and the encoder are inverse to each other on the well-formed commands. -/
theorem decode_eq_ok_iff_encode (w : Word) (i : Instr) : decode w = .ok i ↔ i.wf = true ∧ encode i = w := by
  rw [decode_eq_ok_iff_toNat, ← BitVec.toNat_inj]
  refine and_congr_right fun hwf => ?_
  rw [encode_toNat hwf, eq_comm]

theorem decode_encode_of_wf {i : Instr} (h : i.wf = true) : decode (encode i) = .ok i :=
  (decode_eq_ok_iff_encode _ _).2 ⟨h, rfl⟩

/-! ## The rows of R72 -/

/-- The row of a command without a count is its one word. -/
theorem matches_row_iff_decode (w : Word) {i : Instr} (hmask : i.rowMask = BitVec.allOnes 64) (hcount : i.count = 0)
    (hwf : i.wf = true) : w &&& i.rowMask = i.rowMatch ↔ decode w = .ok i := by
  have hword : encode i = i.rowMatch := by simp [encode, Instr.rowMatch, hcount]
  rw [hmask, BitVec.and_allOnes, decode_eq_ok_iff_encode, hword]
  simp [hwf, eq_comm]

/-- The row of TAIL fixes OP and the zero bits and leaves the count free. -/
theorem matches_tail_row_iff_decode (w : Word) :
    w &&& 0xFFFFFFFFFFFFFF0F = 0x0000000000000003 ↔ ∃ n, decode w = .ok (.tail n) := by
  constructor
  · intro h
    have hop : opField (w &&& 0xFFFFFFFFFFFFFF0F) = opField w :=
      BitVec.extractLsb'_and.trans BitVec.and_allOnes
    have hzero : zeroField (w &&& 0xFFFFFFFFFFFFFF0F) = zeroField w :=
      BitVec.extractLsb'_and.trans BitVec.and_allOnes
    rw [h] at hop hzero
    refine ⟨(countField w).toNat, ?_⟩
    rw [decode, ← hzero, ← hop]
    rfl
  · rintro ⟨n, h⟩
    obtain ⟨hwf, rfl⟩ := (decode_eq_ok_iff_encode _ _).1 h
    exact Laws.TableRow.tail n hwf

theorem commandWords_count : ((List.range 256).filter fun x => (decodeTableWord 64 x).isSome).length = 23 := by
  decide

/-- Settles O3: a row is its command's word, or for TAIL its words, and a word from 256 on has a reserved bit. -/
theorem wordsSelectCommandsByMatchAndMask : Obligations.WordsSelectCommandsByMatchAndMask := by
  refine ⟨fun w => ⟨matches_row_iff_decode w (i := .nop) rfl rfl rfl, matches_row_iff_decode w (i := .init) rfl rfl rfl,
    matches_row_iff_decode w (i := .block) rfl rfl rfl, matches_tail_row_iff_decode w,
    matches_row_iff_decode w (i := .final) rfl rfl rfl, matches_row_iff_decode w (i := .venc) rfl rfl rfl,
    matches_row_iff_decode w (i := .compose) rfl rfl rfl, matches_row_iff_decode w (i := .srst) rfl rfl rfl⟩,
    fun n hn => decode_encode_of_wf (i := .tail n) (decide_eq_true hn), commandWords_count, fun w hw i h => ?_⟩
  rw [decode_of_ge hw] at h
  cases h

end Sys2Proof

namespace Sys2Proof.Machine

/-! ## Illegal words -/

theorem not_illegalWord_of_decode {w : Word} {i : Instr} (h : decode w = .ok i) : ¬ IllegalWord w := by
  obtain ⟨hzero, hop, hcount⟩ := fields_of_decode h
  unfold IllegalWord
  rw [hzero, hop, hcount]
  cases i <;> simp [Instr.opcode, Instr.count]

/-- A word that meets none of the conditions of R74 has one of the eight opcodes, with no count but for TAIL. -/
theorem exists_decode_of_not_illegalWord {w : Word} (h : ¬ IllegalWord w) : ∃ i, decode w = .ok i := by
  have decodes (i : Instr) (hwf : i.wf = true) (hw : w.toNat = i.opcode + 16 * i.count) : ∃ i, decode w = .ok i :=
    ⟨i, (decode_eq_ok_iff_toNat w i).2 ⟨hwf, hw⟩⟩
  have words : w.toNat = 0x0 ∨ w.toNat = 0x1 ∨ w.toNat = 0x2 ∨
      (w.toNat = 0x3 + 16 * (w.toNat / 16) ∧ w.toNat / 16 ≤ 15) ∨
      w.toNat = 0x4 ∨ w.toNat = 0x5 ∨ w.toNat = 0x6 ∨ w.toNat = 0xF := by
    unfold IllegalWord at h
    omega
  rcases words with h0 | h1 | h2 | ⟨h3, hn⟩ | h4 | h5 | h6 | hF
  · exact decodes .nop rfl h0
  · exact decodes .init rfl h1
  · exact decodes .block rfl h2
  · exact decodes (.tail (w.toNat / 16)) (decide_eq_true hn) h3
  · exact decodes .final rfl h4
  · exact decodes .venc rfl h5
  · exact decodes .compose rfl h6
  · exact decodes .srst rfl hF

theorem exists_error_of_illegalWord {w : Word} (h : IllegalWord w) : ∃ r, decode w = .error r := by
  cases hd : decode w with
  | ok i => exact absurd h (not_illegalWord_of_decode hd)
  | error r => exact ⟨r, rfl⟩

theorem writeCommand_of_decode {w : Word} {i : Instr} (h : decode w = .ok i) (s : State) :
    writeCommand w s = exec i s := by simp only [writeCommand, h]

theorem writeCommand_of_illegalWord {w : Word} (h : IllegalWord w) (s : State) :
    writeCommand w s = illegalCommand s := by
  obtain ⟨r, hr⟩ := exists_error_of_illegalWord h
  simp only [writeCommand, hr]

/-- Settles O5: the illegal words are those that do not decode, and `illegalCommand` is the fault alone. -/
theorem illegalWordsRaiseIllegalCmd : Obligations.IllegalWordsRaiseIllegalCmd := by
  intro w s herr
  constructor
  · intro h
    exact (writeCommand_of_illegalWord h s).trans (command_running (cmdFault .illegalCmd) s herr)
  · intro h
    obtain ⟨i, hi⟩ := exists_decode_of_not_illegalWord h
    obtain ⟨hwf, henc⟩ := (decode_eq_ok_iff_encode w i).1 hi
    exact ⟨i, hwf, henc, writeCommand_of_decode hi s⟩

/-! ## ExecCmd -/

theorem guarded_mayAbsorb (c : CmdFault) (f : Engine → Engine) (e : Engine) :
    guarded Engine.mayAbsorb c f e = if e.phase ≠ .absorb then cmdFault c e else f e := by
  by_cases h : e.phase = .absorb <;> simp [guarded, Engine.mayAbsorb, h]

theorem guarded_mayFinalize (c : CmdFault) (f : Engine → Engine) (e : Engine) :
    guarded Engine.mayFinalize c f e = if e.phase ≠ .absorb ∧ e.phase ≠ .tailed then cmdFault c e else f e := by
  cases h : e.phase <;> simp [guarded, Engine.mayFinalize, h]

theorem guarded_mayCompose (c : CmdFault) (f : Engine → Engine) (e : Engine) :
    guarded Engine.mayCompose c f e = if e.phase ≠ .done ∨ e.vvalid = false then cmdFault c e else f e := by
  by_cases h : e.phase = .done <;> cases hv : e.vvalid <;> simp [guarded, Engine.mayCompose, h, hv]

theorem writeCommandEngine_of_decode {w : Word} {i : Instr} (h : decode w = .ok i) (e : Engine) :
    writeCommandEngine w e = execEngine i e := by simp only [writeCommandEngine, h]

theorem writeCommandEngine_of_illegalWord {w : Word} (h : IllegalWord w) {e : Engine} (herr : e.err = false) :
    writeCommandEngine w e = cmdFault .illegalCmd e := by
  obtain ⟨r, hr⟩ := exists_error_of_illegalWord h
  simp [writeCommandEngine, hr, herr]

/-- While ERR = 1 every command but SRST is ignored (R178). -/
theorem execEngine_of_err (i : Instr) {e : Engine} (herr : e.err = true) :
    execEngine i e = if i = .srst then Engine.reset else e := by
  cases i <;> simp [execEngine, herr]

/-- While ERR = 1 every word but 0x0F is ignored (R75, R178). -/
theorem writeCommandEngine_of_err (w : Word) {e : Engine} (herr : e.err = true) :
    writeCommandEngine w e = if w = 0x0F then Engine.reset else e := by
  have srstWord : w = 0x0F ↔ decode w = .ok .srst := by
    rw [decode_eq_ok_iff_encode, eq_comm]
    exact (and_iff_right rfl).symm
  cases hd : decode w with
  | ok i =>
    rw [writeCommandEngine_of_decode hd, execEngine_of_err i herr]
    exact if_congr (by rw [srstWord, hd, Except.ok.injEq]) rfl rfl
  | error r =>
    rw [if_neg (by rw [srstWord, hd]; exact nofun)]
    simp [writeCommandEngine, hd, herr]

/-- Settles O6: `writeCommandEngine` branch by branch, and the port answers a command OK. -/
theorem commandWriteFollowsExecCmd : Obligations.CommandWriteFollowsExecCmd := by
  intro w s e fault op n after
  have raises (c : CmdFault) : cmdFault c e = fault c.code := rfl
  have engine_after : writeCommandEngine w e = after := by
    cases herr : e.err with
    | true => simp [after, herr, writeCommandEngine_of_err w herr]
    | false =>
      by_cases hw : IllegalWord w
      · rw [writeCommandEngine_of_illegalWord hw herr]
        by_cases hzero : w.toNat / 256 ≠ 0
        · simp [after, herr, hzero, raises, CmdFault.code]
        by_cases hreserved : 0x7 ≤ op ∧ op ≤ 0xE
        · simp [after, herr, hzero, hreserved, raises, CmdFault.code]
        have hcount : op ≠ 0x3 ∧ n ≠ 0 := (hw.resolve_left hzero).resolve_left hreserved
        simp [after, herr, hcount, raises, CmdFault.code]
      · obtain ⟨i, hi⟩ := exists_decode_of_not_illegalWord hw
        obtain ⟨hzero, hop, hcount⟩ : w.toNat / 256 = 0 ∧ op = i.opcode ∧ n = i.count := fields_of_decode hi
        rw [writeCommandEngine_of_decode hi]
        cases i with
        | nop | init | venc | srst => simp [after, herr, hzero, hop, hcount, Instr.opcode, Instr.count, execEngine]
        | block | tail | final | compose =>
          simp [after, herr, hzero, hop, hcount, Instr.opcode, Instr.count, execEngine, guarded_mayAbsorb,
            guarded_mayFinalize, guarded_mayCompose, raises, CmdFault.code]
  have hwrite : writeCommand w s = .next (s.withEngine after) := engine_after ▸ writeCommand_eq w s
  refine ⟨hwrite, (memWrite_writable (r := .cmd) w s rfl).trans ?_⟩
  simp only [writeRegister, hwrite, onNext_next]

end Sys2Proof.Machine
end

section
/-! PROOF. The hash unit's pure functions (40_murmur3_engine.md R91 to R97) in whole numbers, and the words of a tail
as its bytes. -/

namespace Sys2Proof.Machine

/-! ## Mixing -/

theorem rotl64_toNat (x : Word) (r : Nat) :
    (rotl64 x r).toNat = (x.toNat * 2 ^ r % 2 ^ 64) ||| (x.toNat / 2 ^ (64 - r)) := by
  rw [rotl64, BitVec.toNat_or, BitVec.toNat_shiftLeft, BitVec.toNat_ushiftRight, Nat.shiftLeft_eq,
    Nat.shiftRight_eq_div_pow]

theorem mixK1_zero : mixK1 0 = 0 := by decide

theorem mixK2_zero : mixK2 0 = 0 := by decide

/-- A tail whose words are zero leaves both accumulators (R103). -/
theorem tailMix_zero (h1 h2 : Word) : tailMix h1 h2 0 0 = (h1, h2) := by
  rw [tailMix, mixK1_zero, mixK2_zero]
  exact congrArg₂ Prod.mk BitVec.xor_zero BitVec.xor_zero

/-- Settles O41: product, rotation, product, each computed modulo 2^64. -/
theorem mixingInWholeNumbers : Obligations.MixingInWholeNumbers := by
  refine ⟨fun k => ⟨?_, ?_⟩, mixK1_zero, mixK2_zero, by decide, by decide⟩
  · rw [mixK1, BitVec.toNat_mul, rotl64_toNat, BitVec.toNat_mul]; rfl
  · rw [mixK2, BitVec.toNat_mul, rotl64_toNat, BitVec.toNat_mul]; rfl

/-! ## The block step -/

/-- One half of the block step (R93) in whole numbers: `m` is the mixed word, `g` the other accumulator. -/
theorem blockHalf_toNat (h m g a : Word) (r : Nat) :
    ((rotl64 (h ^^^ m) r + g) * 5 + a).toNat =
      ((((h.toNat ^^^ m.toNat) * 2 ^ r % 2 ^ 64 ||| (h.toNat ^^^ m.toNat) / 2 ^ (64 - r)) + g.toNat) * 5 + a.toNat)
        % 2 ^ 64 := by
  rw [← BitVec.toNat_xor, ← rotl64_toNat]
  simp only [BitVec.toNat_add, BitVec.toNat_mul, show (5 : Word).toNat = 5 from rfl]
  omega

/-- Settles O42: each accumulator is one `blockHalf_toNat`, the second with the first's new value. -/
theorem blockMixInWholeNumbers : Obligations.BlockMixInWholeNumbers := by
  refine ⟨?_, by decide⟩
  intro h1 h2 k1 k2 rot new1 new2
  have first : (blockMix h1 h2 k1 k2).1.toNat = new1 := blockHalf_toNat h1 (mixK1 k1) h2 a1 27
  have second : (blockMix h1 h2 k1 k2).2.toNat =
      ((rot (h2.toNat ^^^ (mixK2 k2).toNat) 31 + (blockMix h1 h2 k1 k2).1.toNat) * 5 + 0x38495ab5) % 2 ^ 64 :=
    blockHalf_toNat h2 (mixK2 k2) (blockMix h1 h2 k1 k2).1 a2 31
  exact ⟨first, by rw [second, first]⟩

/-! ## Finalization -/

theorem finalize_zero : finalize 0 0 0 = (0, 0) := by decide

theorem finalize_zero_one : finalize 0 0 1 = (0x4610abe56eff5cb5, 0x51622daa78f83583) := by decide

/-- Settles O43: the last two additions of `finalize`, the second with the first's result. -/
theorem finalizeInWholeNumbers : Obligations.FinalizeInWholeNumbers := by
  refine ⟨?_, finalize_zero_one, finalize_zero⟩
  intro h1 h2 len q1 q2 s1
  have first : (finalize h1 h2 len).1.toNat = s1 := BitVec.toNat_add (fmix64 q1) (fmix64 q2)
  have second : (finalize h1 h2 len).2.toNat = ((fmix64 q2).toNat + (finalize h1 h2 len).1.toNat) % 2 ^ 64 :=
    BitVec.toNat_add (fmix64 q2) (finalize h1 h2 len).1
  exact ⟨first, by rw [second, first]⟩

/-! ## The words of a tail -/

theorem bytemask_toNat {m : Nat} (hm : m ≤ 8) : (bytemask m).toNat = 2 ^ (8 * m) - 1 := by
  have hle : 2 ^ (8 * m) ≤ 2 ^ 64 := Nat.pow_le_pow_right (by decide) (by omega)
  rw [bytemask, BitVec.toNat_ofNat, Nat.mod_eq_of_lt (by omega)]

theorem and_bytemask_toNat (v : Word) {m : Nat} (hm : m ≤ 8) : (v &&& bytemask m).toNat = v.toNat % 2 ^ (8 * m) := by
  rw [BitVec.toNat_and, bytemask_toNat hm, Nat.and_two_pow_sub_one_eq_mod]

@[simp] theorem and_bytemask_zero (v : Word) : v &&& bytemask 0 = 0 := by
  simp [bytemask]

@[simp] theorem and_bytemask_eight (v : Word) : v &&& bytemask 8 = v := BitVec.and_allOnes

/-- A word masked to its first `m` bytes is the word of those bytes. -/
theorem and_bytemask_eq_le64 (v : Word) (m : Nat) : v &&& bytemask m = le64 ((bytesLe v 8).take m) := by
  refine word_eq_of_bytes fun j hj => ?_
  rw [byteOf_and_bytemask v m j hj, byteOf_le64 _ j hj, List.getD_eq_getElem?_getD, List.getElem?_take]
  by_cases h : j < m
  · simp [h, bytesLe_getElem? v 8 j hj]
  · simp [h]

theorem take_eight_take_bytesOfPair (a b : Word) (n : Nat) :
    ((bytesOfPair a b).take n).take 8 = (bytesLe a 8).take (min n 8) := by
  rw [List.take_take, bytesOfPair, List.take_append_of_le_length (by simp), Nat.min_comm]

theorem drop_eight_take_bytesOfPair (a b : Word) (n : Nat) :
    ((bytesOfPair a b).take n).drop 8 = (bytesLe b 8).take (n - 8) := by
  rw [List.drop_take, bytesOfPair, List.drop_left' (bytesLe_length a 8)]

/-- The words of a tail are those of its bytes (R94), so they depend on nothing else. -/
theorem tailWords_eq_le64 (d0 d1 : Word) (n : Nat) :
    tailWords d0 d1 n =
      (le64 (((bytesOfPair d0 d1).take n).take 8), le64 (((bytesOfPair d0 d1).take n).drop 8)) := by
  rw [take_eight_take_bytesOfPair, drop_eight_take_bytesOfPair, ← and_bytemask_eq_le64, ← and_bytemask_eq_le64,
    tailWords]

/-- A tail of at most eight bytes does not reach DIN1. -/
theorem tailWords_of_le_eight (d0 d1 : Word) {n : Nat} (hn : n ≤ 8) :
    tailWords d0 d1 n = (d0 &&& bytemask n, 0) := by
  rw [tailWords, Nat.min_eq_left hn, Nat.sub_eq_zero_of_le hn, and_bytemask_zero]

@[simp] theorem tailWords_zero (d0 d1 : Word) : tailWords d0 d1 0 = (0, 0) := by
  rw [tailWords_of_le_eight d0 d1 (Nat.zero_le 8), and_bytemask_zero]

/-- Settles O45: the mask of each half as a remainder, and its word as the bytes of the tail in that half. -/
theorem tailWordsAreTheTailBytes : Obligations.TailWordsAreTheTailBytes := by
  intro d0 d1 n hn t
  refine ⟨tailWords_eq_le64 d0 d1 n, and_bytemask_toNat d0 (Nat.min_le_right n 8), and_bytemask_toNat d1 (by omega),
    ?_, ?_, ?_⟩
  · rintro rfl
    exact tailWords_zero d0 d1
  · intro hle
    rw [tailWords_of_le_eight d0 d1 hle]
  · intro hge
    rw [tailWords, Nat.min_eq_right hge, and_bytemask_eight]

end Sys2Proof.Machine
end

section
/-! PROOF. The hash commands INIT, BLOCK, TAIL and FINAL (40_murmur3_engine.md R99 to R102): the whole next state where
the phase allows the command, and the fault elsewhere. -/

namespace Sys2Proof.Machine

/-! ## Each command on an engine with ERR = 0 -/

theorem execEngine_init {e : Engine} (herr : e.err = false) : execEngine .init e = openMessage e := by
  simp [execEngine, herr]

theorem execEngine_block {e : Engine} (herr : e.err = false) :
    execEngine .block e = if e.phase ≠ .absorb then cmdFault .sequence e else absorbBlock e := by
  simp only [execEngine, herr, Bool.false_eq_true, if_false, guarded_mayAbsorb]

theorem execEngine_tail (n : Nat) {e : Engine} (herr : e.err = false) :
    execEngine (.tail n) e = if e.phase ≠ .absorb then cmdFault .sequence e else absorbTail n e := by
  simp only [execEngine, herr, Bool.false_eq_true, if_false, guarded_mayAbsorb]

theorem execEngine_final {e : Engine} (herr : e.err = false) :
    execEngine .final e =
      if e.phase ≠ .absorb ∧ e.phase ≠ .tailed then cmdFault .sequence e else finalizeMessage e := by
  simp only [execEngine, herr, Bool.false_eq_true, if_false, guarded_mayFinalize]

theorem exec_init (s : State) (herr : s.engine.err = false) :
    exec .init s = .next (s.withEngine (openMessage s.engine)) := by
  rw [exec_eq, execEngine_init herr]

theorem exec_block_of_absorb (s : State) (herr : s.engine.err = false) (hphase : s.engine.phase = .absorb) :
    exec .block s = .next (s.withEngine (absorbBlock s.engine)) := by
  rw [exec_eq, execEngine_block herr, if_neg (not_not_intro hphase)]

theorem exec_block_fault (s : State) (herr : s.engine.err = false) (hphase : s.engine.phase ≠ .absorb) :
    exec .block s = .next (s.withEngine (cmdFault .sequence s.engine)) := by
  rw [exec_eq, execEngine_block herr, if_pos hphase]

theorem exec_tail_of_absorb (n : Nat) (s : State) (herr : s.engine.err = false) (hphase : s.engine.phase = .absorb) :
    exec (.tail n) s = .next (s.withEngine (absorbTail n s.engine)) := by
  rw [exec_eq, execEngine_tail n herr, if_neg (not_not_intro hphase)]

theorem exec_tail_fault (n : Nat) (s : State) (herr : s.engine.err = false) (hphase : s.engine.phase ≠ .absorb) :
    exec (.tail n) s = .next (s.withEngine (cmdFault .sequence s.engine)) := by
  rw [exec_eq, execEngine_tail n herr, if_pos hphase]

theorem exec_final_of_open (s : State) (herr : s.engine.err = false)
    (hphase : s.engine.phase = .absorb ∨ s.engine.phase = .tailed) :
    exec .final s = .next (s.withEngine (finalizeMessage s.engine)) := by
  rw [exec_eq, execEngine_final herr, if_neg (fun h => hphase.elim h.1 h.2)]

theorem exec_final_fault (s : State) (herr : s.engine.err = false)
    (hphase : s.engine.phase = .idle ∨ s.engine.phase = .done) :
    exec .final s = .next (s.withEngine (cmdFault .sequence s.engine)) := by
  rw [exec_eq, execEngine_final herr, if_pos (by rcases hphase with h | h <;> simp [h])]

/-! ## Their effects -/

/-- A second INIT in a row changes nothing more (R99). -/
theorem openMessage_openMessage (e : Engine) : openMessage (openMessage e) = openMessage e := rfl

theorem exec_init_opened (s : State) (herr : s.engine.err = false) :
    exec .init (s.withEngine (openMessage s.engine)) = .next (s.withEngine (openMessage s.engine)) := by
  rw [exec_init (s.withEngine (openMessage s.engine)) herr, State.withEngine_engine, openMessage_openMessage,
    State.withEngine_withEngine]

/-- Counting on the number of LEN is counting modulo 2^64 (R22). -/
theorem ofNat_toNat_add (len : Word) (n : Nat) : BitVec.ofNat 64 (len.toNat + n) = len + BitVec.ofNat 64 n := by
  rw [BitVec.ofNat_add, BitVec.ofNat_toNat, BitVec.setWidth_eq]

/-- A tail of no bytes moves only the phase (R101). -/
theorem absorbTail_zero (e : Engine) : absorbTail 0 e = { e with phase := .tailed } := by
  simp only [absorbTail, tailWords_zero, tailMix_zero, BitVec.add_zero]

/-- FINAL reads the accumulators and the counter, not the phase (R102). -/
theorem finalizeMessage_of_phase (p : Phase) (e : Engine) :
    finalizeMessage { e with phase := p } = finalizeMessage e := rfl

/-- The digest of the empty message with seed 0 is zero (R102, R106). -/
theorem finalizeMessage_openMessage_of_seed_zero {e : Engine} (hseed : e.seed = 0) :
    (finalizeMessage (openMessage e)).h1 = 0 ∧ (finalizeMessage (openMessage e)).h2 = 0 := by
  have hzero : zextSeed e.seed = 0 := by rw [hseed]; rfl
  rw [finalizeMessage_h1, finalizeMessage_h2, openMessage_h1, openMessage_h2, openMessage_len, hzero, finalize_zero]
  exact ⟨rfl, rfl⟩

/-- FPVALID is only set in DONE (R41 (d)). -/
theorem Engine.Inv.fpvalid_eq_false {e : Engine} (h : e.Inv) (hphase : e.phase ≠ .done) : e.fpvalid = false := by
  rw [← Bool.not_eq_true]
  exact fun hfp => hphase (h.fp_current hfp).1

/-! ## The obligations -/

/-- Settles O19: INIT is `openMessage`, which leaves ERR and repeats without effect. -/
theorem initOpensAMessage : Obligations.InitOpensAMessage :=
  ⟨by decide, fun s herr => ⟨exec_init s herr, exec_init_opened s herr⟩⟩

/-- Settles O20: BLOCK is `absorbBlock` in ABSORB and a fault elsewhere. -/
theorem blockAbsorbsSixteenBytes : Obligations.BlockAbsorbsSixteenBytes := by
  refine ⟨by decide, ?_, exec_block_fault, by decide, by decide⟩
  intro s herr hphase
  rw [exec_block_of_absorb s herr hphase, ofNat_toNat_add]
  rfl

/-- Settles O21: TAIL n is `absorbTail n` in ABSORB and a fault elsewhere, and its words are those of the first n
bytes. -/
theorem tailAbsorbsTheFirstBytes : Obligations.TailAbsorbsTheFirstBytes := by
  refine ⟨?_, ?_, by decide, fun n _ => ⟨rfl, fun s herr hphase => ⟨?_, ?_⟩, exec_tail_fault n, ?_, ?_⟩⟩
  · intro w h
    obtain ⟨hwf, -⟩ := (decode_eq_ok_iff_toNat w (.tail 16)).1 h
    exact absurd hwf (by decide)
  · intro d1
    rw [tailWords_of_le_eight _ d1 (by decide)]
    rfl
  · rw [exec_tail_of_absorb n s herr hphase, ofNat_toNat_add]
    rfl
  · rintro rfl
    rw [exec_tail_of_absorb 0 s herr hphase, absorbTail_zero]
  · intro d0 d1 d0' d1' htake
    rw [tailWords_eq_le64, tailWords_eq_le64, htake]
  · intro d0 d1 d1' hle
    rw [tailWords_of_le_eight d0 d1 hle, tailWords_of_le_eight d0 d1' hle]

/-- Settles O22: FINAL is `finalizeMessage` in ABSORB and TAILED and a fault elsewhere; TAIL 0 moves only the phase,
which FINAL does not read. -/
theorem finalFinalizesTheMessage : Obligations.FinalFinalizesTheMessage := by
  refine ⟨by decide, exec_final_of_open, exec_final_fault, ?_, ?_, ?_, finalize_zero_one, by decide⟩
  · intro s herr hphase
    have afterTail := exec_final_of_open (s.withEngine { s.engine with phase := .tailed }) herr (.inr rfl)
    rw [State.withEngine_engine, finalizeMessage_of_phase, State.withEngine_withEngine] at afterTail
    rw [exec_tail_of_absorb 0 s herr hphase, absorbTail_zero, exec_final_of_open s herr (.inl hphase)]
    exact ⟨_, rfl, afterTail⟩
  · intro s hinv hphase
    exact hinv.fpvalid_eq_false (by rcases hphase with h | h <;> simp [h])
  · intro s herr hseed
    have finalized := exec_final_of_open (s.withEngine (openMessage s.engine)) herr (.inl rfl)
    obtain ⟨h1, h2⟩ := finalizeMessage_openMessage_of_seed_zero hseed
    refine ⟨_, _, exec_init s herr, finalized, h1, h2, ?_⟩
    simp only [State.withEngine_engine, h1, h2]
    decide

end Sys2Proof.Machine
end

section
/-! PROOF. The encoder's loop (42_varint.md R130) and VENC (R132). -/

namespace Sys2Proof.Machine

/-! ## The loop of R130 -/

/-- The byte that the loop emits for a group that is not the last: its seven bits, and bit 7 set. -/
theorem continued_group_setWidth (v : Word) :
    ((v &&& 0x7F) ||| 0x80).setWidth 8 = BitVec.ofNat 8 (v.toNat % 128 + 128) := by
  have low : v.toNat &&& 0x7F = v.toNat % 128 := Nat.and_two_pow_sub_one_eq_mod v.toNat 7
  have disjoint : v.toNat % 128 ||| 0x80 = v.toNat % 128 + 128 := by
    rw [Nat.or_comm, Nat.add_comm]
    exact (Nat.two_pow_add_eq_or_of_lt (i := 7) (Nat.mod_lt _ (by decide)) 1).symm
  rw [← BitVec.ofNat_toNat, BitVec.toNat_or, BitVec.toNat_and]
  exact congrArg (BitVec.ofNat 8) ((congrArg (· ||| 0x80) low).trans disjoint)

theorem varint_of_lt {v : Word} (h : v.toNat < 128) : varint v = [BitVec.ofNat 8 v.toNat] := by
  rw [varint, varintLoop_of_lt 9 h, BitVec.ofNat_toNat]

theorem varint_of_ge {v : Word} (h : 128 ≤ v.toNat) :
    varint v = BitVec.ofNat 8 (v.toNat % 128 + 128) :: varint (v >>> 7) := by
  have enough : (v >>> 7).toNat < 128 ^ 9 := by
    rw [shift_seven_toNat]
    omega
  rw [varint, varintLoop_of_ge 8 h, continued_group_setWidth, varint, varintLoop_fuel 8 _ enough]

/-- Induction along the rounds of the loop: the last group, or one group and then the loop on `v >> 7`. -/
theorem varint_rounds {motive : Word → Prop} (last : ∀ v : Word, v.toNat < 128 → motive v)
    (more : ∀ v : Word, 128 ≤ v.toNat → motive (v >>> 7) → motive v) (v : Word) : motive v := by
  by_cases h : v.toNat < 128
  · exact last v h
  · have : (v >>> 7).toNat < v.toNat := by
      rw [shift_seven_toNat]
      omega
    exact more v (by omega) (varint_rounds last more (v >>> 7))
termination_by v.toNat

/-- Group `i` of the shifted value is the next group of the value. -/
theorem shift_seven_group (v : Word) (i : Nat) :
    (v >>> 7).toNat / 2 ^ (7 * i) % 128 = v.toNat / 2 ^ (7 * (i + 1)) % 128 := by
  rw [shift_seven_toNat, Nat.div_div_eq_div_mul, Nat.mul_succ, Nat.pow_add, Nat.mul_comm]

theorem varint_length_le (v : Word) : (varint v).length ≤ 10 := (varintLoop_length 9 v).2

theorem varint_length_pos (v : Word) : 1 ≤ (varint v).length := (varintLoop_length 9 v).1

/-- The bytes of an encoding: the seven-bit groups of the value, bit 7 set on all but the last. -/
theorem varint_getElem? (v : Word) (i : Nat) :
    (varint v)[i]? =
      if i + 1 < (varint v).length then some (BitVec.ofNat 8 (v.toNat / 2 ^ (7 * i) % 128 + 128))
      else if i + 1 = (varint v).length then some (BitVec.ofNat 8 (v.toNat / 2 ^ (7 * i) % 128)) else none := by
  induction v using varint_rounds generalizing i with
  | last v h =>
    cases i with
    | zero => simp [varint_of_lt h, Nat.mod_eq_of_lt h]
    | succ i => simp [varint_of_lt h]
  | more v h ih =>
    have nonempty := varint_length_pos (v >>> 7)
    cases i with
    | zero => simp [varint_of_ge h, show 0 < (varint (v >>> 7)).length from nonempty]
    | succ i =>
      simp only [varint_of_ge h, List.getElem?_cons_succ, List.length_cons, ih i, shift_seven_group,
        Nat.add_lt_add_iff_right, Nat.add_right_cancel_iff]

theorem group_bit_seven {g : Nat} (h : g < 128) : (BitVec.ofNat 8 g).getLsbD 7 = false := by
  rw [BitVec.getLsbD_ofNat, Nat.testBit_lt_two_pow (i := 7) h, Bool.and_false]

theorem continued_group_bit_seven {g : Nat} (h : g < 128) : (BitVec.ofNat 8 (g + 128)).getLsbD 7 = true := by
  have added : (128 + g).testBit 7 = !g.testBit 7 := Nat.testBit_two_pow_add_eq g 7
  rw [BitVec.getLsbD_ofNat, Nat.add_comm, added, Nat.testBit_lt_two_pow (i := 7) h]
  rfl

/-- Bit 7 says that another byte follows. -/
theorem varint_bit_seven_iff (v : Word) {i : Nat} (hi : i < (varint v).length) :
    ((varint v).getD i 0).getLsbD 7 = true ↔ i + 1 < (varint v).length := by
  have small : v.toNat / 2 ^ (7 * i) % 128 < 128 := Nat.mod_lt _ (by decide)
  rw [List.getD_eq_getElem?_getD, varint_getElem?]
  by_cases h : i + 1 < (varint v).length
  · rw [if_pos h, Option.getD_some, continued_group_bit_seven small]
    exact iff_of_true rfl h
  · rw [if_neg h, if_pos (by omega), Option.getD_some, group_bit_seven small]
    exact iff_of_false Bool.false_ne_true h

/-- No padding group: the last byte is zero for the value 0 alone, whatever stands for the last byte of no bytes. -/
theorem eq_zero_of_varint_last (v : Word) (d : Byte) (h : (varint v).getLastD d = 0) : v = 0 := by
  induction v using varint_rounds generalizing d with
  | last v hv =>
    have : v.toNat % 256 = 0 := by simpa [varint_of_lt hv, ← BitVec.toNat_inj] using h
    exact BitVec.eq_of_toNat_eq (show v.toNat = 0 by omega)
  | more v hv ih =>
    rw [varint_of_ge hv, List.getLastD_cons] at h
    have shifted : v.toNat / 128 = 0 := by rw [← shift_seven_toNat, ih _ h]; rfl
    omega

/-- Settles O49: an equation for each branch of the loop, and by its rounds the bytes and the last of them. -/
theorem varintRunsItsLoop : Obligations.VarintRunsItsLoop :=
  ⟨fun _ => varint_of_ge, fun _ => varint_of_lt, fun v _ => varint_bit_seven_iff v,
    fun v => eq_zero_of_varint_last v 0⟩

/-! ## VENC -/

/-- Sixteen bytes stored in two registers are read back. -/
theorem bytesOfPair_le64 {p : List Byte} (h : p.length = 16) :
    bytesOfPair (le64 (p.take 8)) (le64 (p.drop 8)) = p := by
  refine List.ext_getElem? fun i => ?_
  by_cases hi : i < 16
  · rw [bytesOfPair_getElem? _ _ i hi, List.getElem?_eq_getElem (by omega)]
    by_cases h8 : i < 8
    · rw [if_pos h8, byteOf_le64 _ i h8]
      simp [h8, h]
    · rw [if_neg h8, byteOf_le64 _ _ (by omega)]
      simp [show 8 + (i - 8) = i by omega, h, hi]
  · rw [List.getElem?_eq_none (by simpa using hi), List.getElem?_eq_none (by omega)]

theorem slice_eight_sixteen {p : List Byte} (h : p.length = 16) : slice p 8 16 = p.drop 8 :=
  List.take_of_length_le (by simp [h])

theorem encodeVin_bytes (e : Engine) :
    bytesOfPair (encodeVin e).vout0 (encodeVin e).vout1 = paddedVarint e.vin := by
  have length := paddedVarint_length e.vin
  rw [encodeVin_vout0, encodeVin_vout1, slice_eight_sixteen length]
  exact bytesOfPair_le64 length

theorem encodeVin_vlen_toNat (e : Engine) : (encodeVin e).vlen.toNat = (varint e.vin).length := by
  have := varint_length_le e.vin
  rw [encodeVin_vlen, BitVec.toNat_ofNat, Nat.mod_eq_of_lt (by omega)]

/-- The bytes of the padded encoding: those of the encoding, then zeros. -/
theorem paddedVarint_getElem? (v : Word) {i : Nat} (hi : i < 16) :
    (paddedVarint v)[i]? = some
      (if i + 1 < (varint v).length then BitVec.ofNat 8 (v.toNat / 2 ^ (7 * i) % 128 + 128)
       else if i + 1 = (varint v).length then BitVec.ofNat 8 (v.toNat / 2 ^ (7 * i) % 128) else 0) := by
  rw [paddedVarint]
  by_cases h : i < (varint v).length
  · rw [List.getElem?_append_left h, varint_getElem?]
    by_cases hlast : i + 1 = (varint v).length
    · simp [hlast]
    · simp [show i + 1 < (varint v).length by omega]
  · rw [List.getElem?_append_right (by omega), List.getElem?_replicate, if_pos (by omega), if_neg (by omega),
      if_neg (by omega)]

theorem execEngine_venc {e : Engine} (herr : e.err = false) : execEngine .venc e = encodeVin e := by
  simp [execEngine, herr]

theorem exec_venc (s : State) (herr : s.engine.err = false) :
    exec .venc s = .next (s.withEngine (encodeVin s.engine)) := by
  rw [exec_eq, execEngine_venc herr]

/-- Settles O23: VENC is `encodeVin`, whose output registers hold the bytes of the padded encoding. -/
theorem vencEncodesVin : Obligations.VencEncodesVin := by
  refine ⟨by decide, ?_, ?_, ?_, ?_, ?_⟩
  · intro s herr v p
    rw [exec_venc s herr, encodeVin, slice_eight_sixteen (paddedVarint_length _)]
    rfl
  · intro e f
    simp only [f, encodeVin_bytes, encodeVin_vlen_toNat]
    exact ⟨varint_length_pos e.vin, varint_length_le e.vin, fun i hi => paddedVarint_getElem? e.vin hi⟩
  · intro e h
    rw [encodeVin_vlen, encodeVin_vout0, h]
    decide
  · intro e h
    rw [encodeVin_vlen, encodeVin_vout0, encodeVin_vout1, h]
    decide
  · intro e h
    rw [encodeVin_vlen, encodeVin_vout0, encodeVin_vout1, h]
    decide

end Sys2Proof.Machine
end

section
/-! PROOF. The composition (43_compose.md R140) byte by byte, and COMPOSE (R141) with its equal form by masks. -/

namespace Sys2Proof.Machine

/-! ## The composition -/

theorem compose_of_length_le {v : List Byte} (d : List Byte) (h : v.length ≤ 16) :
    compose v d = some (v ++ d.drop v.length) := if_pos h

theorem append_drop_length {v d : List Byte} (h : v.length ≤ d.length) : (v ++ d.drop v.length).length = d.length := by
  rw [List.length_append, List.length_drop, Nat.add_sub_cancel' h]

theorem append_drop_getElem? (v d : List Byte) (i : Nat) :
    (v ++ d.drop v.length)[i]? = if i < v.length then v[i]? else d[i]? := by
  rw [List.getElem?_append, List.getElem?_drop]
  split
  · rfl
  · rw [show v.length + (i - v.length) = i by omega]

/-- From any index past the prefix on, the bytes are the digest's. -/
theorem drop_append_drop_length {v : List Byte} (d : List Byte) {n : Nat} (h : v.length ≤ n) :
    (v ++ d.drop v.length).drop n = d.drop n := by
  rw [List.drop_append, List.drop_eq_nil_of_le h, List.nil_append, List.drop_drop, Nat.add_sub_cancel' h]

/-- Settles O52: the composition is the prefix and then the digest from the prefix's length on. -/
theorem composeReplacesTheLeadingBytes : Obligations.ComposeReplacesTheLeadingBytes := by
  intro v d _ hv hd
  exact ⟨_, compose_of_length_le d (by omega), (append_drop_length (by omega)).trans hd, drop_append_drop_length d hv,
    fun i _ => append_drop_getElem? v d i⟩

/-! ## The overlay of COMPOSE -/

theorem encoding_length (e : Engine) : e.encoding.length = e.vlen.toNat := by
  have := e.vlen.isLt
  rw [Engine.encoding, List.length_take, bytesOfPair_length, Nat.min_eq_left (by omega)]

/-- The overlay puts the encoding before the rest of the digest. -/
theorem overlay_eq_encoding_append (e : Engine) :
    overlay e.vlen (bytesOfPair e.vout0 e.vout1) e.digest = e.encoding ++ e.digest.drop e.encoding.length := by
  rw [encoding_length]
  rfl

/-- The overlay of COMPOSE is the composition of R140, of the encoding and the digest. -/
theorem compose_encoding_digest (e : Engine) :
    compose e.encoding e.digest = some (overlay e.vlen (bytesOfPair e.vout0 e.vout1) e.digest) := by
  have := e.vlen.isLt
  rw [overlay_eq_encoding_append, compose_of_length_le _ (by rw [encoding_length]; omega)]

theorem overlay_digest_length (e : Engine) :
    (overlay e.vlen (bytesOfPair e.vout0 e.vout1) e.digest).length = 16 := by
  have := e.vlen.isLt
  have digest_length : e.digest.length = 16 := bytesOfPair_length e.h1 e.h2
  rw [overlay_eq_encoding_append, append_drop_length (by rw [encoding_length]; omega), digest_length]

/-- COMPOSE stores the two halves of the overlay, and sets FPVALID. -/
theorem composeFingerprint_eq (e : Engine) :
    composeFingerprint e =
      { e with
        fp0 := le64 ((overlay e.vlen (bytesOfPair e.vout0 e.vout1) e.digest).take 8)
        fp1 := le64 ((overlay e.vlen (bytesOfPair e.vout0 e.vout1) e.digest).drop 8), fpvalid := true } := by
  rw [← slice_eight_sixteen (overlay_digest_length e)]
  rfl

/-- COMPOSE leaves what it reads, so it may be repeated (R141). -/
theorem composeFingerprint_composeFingerprint (e : Engine) :
    composeFingerprint (composeFingerprint e) = composeFingerprint e := rfl

/-! ## COMPOSE on an engine with ERR = 0 -/

theorem execEngine_compose {e : Engine} (herr : e.err = false) :
    execEngine .compose e =
      if e.phase ≠ .done ∨ e.vvalid = false then cmdFault .notReady e else composeFingerprint e := by
  simp only [execEngine, herr, Bool.false_eq_true, if_false, guarded_mayCompose]

theorem exec_compose_of_ready (s : State) (herr : s.engine.err = false) (hphase : s.engine.phase = .done)
    (hvalid : s.engine.vvalid = true) : exec .compose s = .next (s.withEngine (composeFingerprint s.engine)) := by
  rw [exec_eq, execEngine_compose herr, if_neg (by simp [hphase, hvalid])]

theorem exec_compose_fault (s : State) (herr : s.engine.err = false)
    (h : s.engine.phase ≠ .done ∨ s.engine.vvalid = false) :
    exec .compose s = .next (s.withEngine (cmdFault .notReady s.engine)) := by
  rw [exec_eq, execEngine_compose herr, if_pos h]

theorem exec_compose_composed (s : State) (herr : s.engine.err = false) (hphase : s.engine.phase = .done)
    (hvalid : s.engine.vvalid = true) :
    exec .compose (s.withEngine (composeFingerprint s.engine)) =
      .next (s.withEngine (composeFingerprint s.engine)) := by
  rw [exec_compose_of_ready (s.withEngine (composeFingerprint s.engine)) herr hphase hvalid, State.withEngine_engine,
    composeFingerprint_composeFingerprint, State.withEngine_withEngine]

/-! ## The form by masks -/

/-- A word masked to the bytes from the mask's length on loses the bytes below it. -/
theorem byteOf_and_not_bytemask (v : Word) (m j : Nat) (hj : j < 8) :
    byteOf (v &&& ~~~bytemask m) j = if j < m then 0 else byteOf v j := by
  apply BitVec.eq_of_getLsbD_eq
  intro k hk
  have hi : 8 * j + k < 64 := by omega
  rw [byteOf_getLsbD _ _ _ hk, BitVec.getLsbD_and, BitVec.getLsbD_not, bytemask_getLsbD _ _ hi]
  by_cases h : j < m
  · simp [h, show 8 * j + k < 8 * m by omega]
  · simp [h, hi, byteOf_getLsbD _ _ _ hk, show ¬ 8 * j + k < 8 * m by omega]

/-- One word laid over another is the disjunction of the two, masked. -/
theorem le64_take_append_drop (v h : Word) (m : Nat) :
    le64 ((bytesLe v 8).take m ++ (bytesLe h 8).drop m) = (h &&& ~~~bytemask m) ||| (v &&& bytemask m) := by
  refine word_eq_of_bytes fun j hj => ?_
  have or_byte (a b : Word) : byteOf (a ||| b) j = byteOf a j ||| byteOf b j := BitVec.extractLsb'_or
  rw [byteOf_le64 _ j hj, or_byte, byteOf_and_not_bytemask h m j hj, byteOf_and_bytemask v m j hj,
    List.getD_eq_getElem?_getD]
  by_cases hm : j < m
  · rw [List.getElem?_append_left (by simp [hm, hj]), List.getElem?_take_of_lt hm, bytesLe_getElem? v 8 j hj]
    simp [hm]
  · rw [List.getElem?_append_right (by simp; omega), List.getElem?_drop, List.length_take, bytesLe_length,
      show m + (j - min m 8) = j by omega, bytesLe_getElem? h 8 j hj]
    simp [hm]

/-- The overlay falls into its two words: the second one is reached by the bytes from index 8 on. -/
theorem overlay_bytesOfPair (m : BitVec 4) (a a' b b' : Word) :
    overlay m (bytesOfPair a a') (bytesOfPair b b') =
      ((bytesLe a 8).take m.toNat ++ (bytesLe b 8).drop m.toNat) ++
        ((bytesLe a' 8).take (m.toNat - 8) ++ (bytesLe b' 8).drop (m.toNat - 8)) := by
  simp only [overlay, bytesOfPair, List.take_append, List.drop_append, bytesLe_length]
  rcases Nat.le_total m.toNat 8 with h | h
  · simp [Nat.sub_eq_zero_of_le h]
  · simp [List.drop_eq_nil_of_le (as := bytesLe b 8) (by simpa using h)]

theorem take_append_drop_bytesLe_length (a b : Word) (m : Nat) :
    ((bytesLe a 8).take m ++ (bytesLe b 8).drop m).length = 8 := by
  simp only [List.length_append, List.length_take, List.length_drop, bytesLe_length]
  omega

/-- FP0 by masks, in every state (R141). -/
theorem composeFingerprint_fp0_eq_masks (e : Engine) :
    (composeFingerprint e).fp0 = (e.h1 &&& ~~~bytemask e.vlen.toNat) ||| (e.vout0 &&& bytemask e.vlen.toNat) := by
  rw [composeFingerprint_eq, Engine.digest, overlay_bytesOfPair]
  simp only [List.take_left' (take_append_drop_bytesLe_length _ _ _), le64_take_append_drop]

/-- FP1 by masks, in every state (R141). -/
theorem composeFingerprint_fp1_eq_masks (e : Engine) :
    (composeFingerprint e).fp1 =
      (e.h2 &&& ~~~bytemask (e.vlen.toNat - 8)) ||| (e.vout1 &&& bytemask (e.vlen.toNat - 8)) := by
  rw [composeFingerprint_eq, Engine.digest, overlay_bytesOfPair]
  simp only [List.drop_left' (take_append_drop_bytesLe_length _ _ _), le64_take_append_drop]

theorem and_bytemask_of_bytes_above_zero {v : Word} {m : Nat} (h : ∀ j, j < 8 → m ≤ j → byteOf v j = 0) :
    v &&& bytemask m = v := by
  refine word_eq_of_bytes fun j hj => ?_
  rw [byteOf_and_bytemask v m j hj]
  split
  · rfl
  · rw [h j hj (by omega)]

/-- The bytes of the output registers from index VLEN on are zero (R41 (c)). -/
theorem Engine.Inv.vout_getElem? {e : Engine} (h : e.Inv) {i : Nat} (hi : i < 16) (hle : e.vlen.toNat ≤ i) :
    (bytesOfPair e.vout0 e.vout1)[i]? = some 0 := by
  have dropped : ((bytesOfPair e.vout0 e.vout1).drop e.vlen.toNat)[i - e.vlen.toNat]? = some 0 := by
    rw [h.vout_above, List.getElem?_replicate, if_pos (by omega)]
  rwa [List.getElem?_drop, Nat.add_sub_cancel' hle] at dropped

theorem Engine.Inv.vout0_and_bytemask {e : Engine} (h : e.Inv) : e.vout0 &&& bytemask e.vlen.toNat = e.vout0 := by
  refine and_bytemask_of_bytes_above_zero fun j hj hle => ?_
  have byte := h.vout_getElem? (show j < 16 by omega) hle
  rw [bytesOfPair_getElem? _ _ j (by omega), if_pos hj] at byte
  exact Option.some.inj byte

theorem Engine.Inv.vout1_and_bytemask {e : Engine} (h : e.Inv) :
    e.vout1 &&& bytemask (e.vlen.toNat - 8) = e.vout1 := by
  refine and_bytemask_of_bytes_above_zero fun j hj hle => ?_
  have byte := h.vout_getElem? (show j + 8 < 16 by omega) (by omega)
  rw [bytesOfPair_getElem? _ _ (j + 8) (by omega), if_neg (by omega), Nat.add_sub_cancel] at byte
  exact Option.some.inj byte

/-- FP0 in a state that meets the invariant: the disjunction needs no mask on VOUT0. -/
theorem Engine.Inv.composeFingerprint_fp0 {e : Engine} (h : e.Inv) :
    (composeFingerprint e).fp0 = (e.h1 &&& ~~~bytemask e.vlen.toNat) ||| e.vout0 := by
  rw [composeFingerprint_fp0_eq_masks, h.vout0_and_bytemask]

/-- FP1 in a state that meets the invariant: the disjunction needs no mask on VOUT1. -/
theorem Engine.Inv.composeFingerprint_fp1 {e : Engine} (h : e.Inv) :
    (composeFingerprint e).fp1 = (e.h2 &&& ~~~bytemask (e.vlen.toNat - 8)) ||| e.vout1 := by
  rw [composeFingerprint_fp1_eq_masks, h.vout1_and_bytemask]

/-- Above a mask of eight bytes or more nothing is left of a word. -/
theorem and_not_bytemask_of_eight_le (v : Word) {m : Nat} (hm : 8 ≤ m) : v &&& ~~~bytemask m = 0 := by
  refine word_eq_of_bytes fun j hj => ?_
  rw [byteOf_and_not_bytemask v m j hj, if_pos (by omega)]
  exact BitVec.extractLsb'_zero.symm

/-- With an encoding of at most eight bytes FP1 is H2. -/
theorem composeFingerprint_fp1_of_vlen_le_eight {e : Engine} (hm : e.vlen.toNat ≤ 8) :
    (composeFingerprint e).fp1 = e.h2 := by
  rw [composeFingerprint_fp1_eq_masks, Nat.sub_eq_zero_of_le hm, and_bytemask_zero]
  exact BitVec.or_zero.trans BitVec.and_allOnes

/-- With an encoding of at least eight bytes, FP0 is VOUT0. -/
theorem Engine.Inv.composeFingerprint_fp0_of_eight_le {e : Engine} (h : e.Inv) (hm : 8 ≤ e.vlen.toNat) :
    (composeFingerprint e).fp0 = e.vout0 := by
  rw [h.composeFingerprint_fp0, and_not_bytemask_of_eight_le _ hm]
  exact BitVec.zero_or

/-- Settles O24: COMPOSE is `composeFingerprint`, whose overlay is the composition, when ready and a fault otherwise;
each half of the overlay is a disjunction of masked words. -/
theorem composeOverlaysTheEncoding : Obligations.ComposeOverlaysTheEncoding := by
  refine ⟨by decide, ?ready, exec_compose_fault, ?venc, ?masks, ?oneByte⟩
  case ready =>
    intro s herr hphase hvalid _ _
    refine ⟨_, compose_encoding_digest s.engine, overlay_digest_length s.engine, ?_⟩
    rw [← composeFingerprint_eq]
    exact ⟨exec_compose_of_ready s herr hphase hvalid, exec_compose_composed s herr hphase hvalid⟩
  case venc =>
    intro s herr
    exact ⟨_, exec_venc s herr, encodeVin_fpvalid _, encodeVin_fp0 _, encodeVin_fp1 _⟩
  case masks =>
    intro e h _ m f
    refine ⟨fun hm => ⟨h.composeFingerprint_fp0, composeFingerprint_fp1_of_vlen_le_eight hm⟩,
      fun hm => h.composeFingerprint_fp0_of_eight_le hm.ge, fun hm => ?_, fun hm => ?_⟩
    · refine ⟨h.composeFingerprint_fp0_of_eight_le (by omega), h.composeFingerprint_fp1.trans ?_⟩
      rw [show e.vlen.toNat = 9 from hm, show ~~~bytemask (9 - 8) = 0xFFFFFFFFFFFFFF00 by decide]
    · refine ⟨h.composeFingerprint_fp0_of_eight_le (by omega), h.composeFingerprint_fp1.trans ?_⟩
      rw [show e.vlen.toNat = 10 from hm, show ~~~bytemask (10 - 8) = 0xFFFFFFFFFFFF0000 by decide]
  case oneByte =>
    intro e hh1 hh2 hvout hvlen
    have one : e.vlen.toNat = 1 := by rw [hvlen]; rfl
    refine ⟨?_, (composeFingerprint_fp1_of_vlen_le_eight (by omega)).trans hh2⟩
    rw [composeFingerprint_fp0_eq_masks, hh1, hvout, one]
    decide

end Sys2Proof.Machine
end

section
/-! PROOF. The system commands NOP and SRST (44_system.md R150, R151) and the words next to theirs. -/

namespace Sys2Proof.Machine

/-! ## NOP -/

/-- NOP leaves every state, with ERR = 1 as well (R150). -/
theorem exec_nop (s : State) : exec .nop s = .next s := exec_eq .nop s

/-- OP = 0 with a count is no command (R74 (c)). -/
theorem decode_of_op_zero_of_count_ne_zero {w : Word} (hlt : w.toNat < 256) (hop : w.toNat % 16 = 0)
    (hcount : w.toNat / 16 ≠ 0) : decode w = .error .countWithoutTail := by
  have count_field : (countField w).toNat ≠ 0 := by
    rw [countField_toNat]
    omega
  rw [decode_of_lt hlt, decodeOp, opField_toNat, hop]
  exact if_neg (mt (congrArg BitVec.toNat) count_field)

/-- Settles O18: NOP has no effect to ignore, and the words 0x10 to 0xF0 hold its opcode with a count. -/
theorem nopLeavesEveryState : Obligations.NopLeavesEveryState := by
  refine ⟨exec_nop, by decide, fun n hpos hle => ?_⟩
  have word : (BitVec.ofNat 64 (16 * n)).toNat = 16 * n := by
    rw [BitVec.toNat_ofNat, Nat.mod_eq_of_lt (by omega)]
  exact decode_of_op_zero_of_count_ne_zero (by omega) (by omega) (by omega)

/-! ## SRST -/

/-- SRST puts the engine in the reset state from every state, with ERR = 1 as well (R151). -/
theorem exec_srst (s : State) : exec .srst s = .next (s.withEngine Engine.reset) := exec_eq .srst s

/-- While ERR = 1 a command other than SRST leaves the state (R178). -/
theorem exec_ignored_of_ne_srst {i : Instr} (hi : i ≠ .srst) {s : State} (herr : s.engine.err = true) :
    exec i s = .next s := by
  rw [exec_eq, execEngine_of_err i herr, if_neg hi, State.withEngine_self]

/-- While ERR = 1 an illegal word leaves the state, as every other word does (R178). -/
theorem writeCommand_ignored_of_illegalWord {w : Word} (hw : IllegalWord w) {s : State} (herr : s.engine.err = true) :
    writeCommand w s = .next s :=
  (writeCommand_of_illegalWord hw s).trans (command_ignored _ s herr)

/-- With ERR = 0 an illegal word is the fault E_ILLEGAL_CMD alone (R172). -/
theorem writeCommand_fault_of_illegalWord {w : Word} (hw : IllegalWord w) {s : State} (herr : s.engine.err = false) :
    writeCommand w s = .next (s.withEngine (cmdFault .illegalCmd s.engine)) :=
  (writeCommand_of_illegalWord hw s).trans (command_running _ s herr)

/-- 0x1F holds the opcode of SRST with the count 1 (R151). -/
theorem illegalWord_srst_with_count : IllegalWord 0x1F := by
  unfold IllegalWord
  decide

/-- Settles O26: SRST is the reset of the engine; with ERR = 1 every other command leaves the state, ERR included. -/
theorem srstResetsTheEngine : Obligations.SrstResetsTheEngine := by
  refine ⟨by decide, exec_srst,
    fun s => ⟨writeCommand_fault_of_illegalWord illegalWord_srst_with_count,
      writeCommand_ignored_of_illegalWord illegalWord_srst_with_count⟩, ?cleared⟩
  case cleared =>
    intro i s t herr hexec hcleared
    by_contra hi
    obtain rfl : s = t := Host.Outcome.next.inj ((exec_ignored_of_ne_srst hi herr).symm.trans hexec)
    exact absurd (herr.symm.trans hcleared) (by decide)

end Sys2Proof.Machine
end

section
/-! PROOF. Access faults and the sticky fault state (60_exceptions.md R175, R178): which host operations answer ERR, and
what a step does while ERR = 1. -/

namespace Sys2Proof.Machine

/-! ## The grounds of an access fault -/

/-- A read is not legal exactly under (a) to (d) of R175. -/
theorem not_legalAccess_read_iff (off n : Nat) :
    ¬ LegalAccess .read off n ↔ n ≠ 8 ∨ off % 8 ≠ 0 ∨ off ∈ [0x68, 0x70, 0x78] ∨ 128 ≤ off ∨ off = 0x00 := by
  simp only [LegalAccess, List.mem_cons, List.not_mem_nil, or_false]
  omega

/-- A write is not legal exactly under (a) to (c) and (e) of R175. -/
theorem not_legalAccess_write_iff (off n : Nat) :
    ¬ LegalAccess .write off n ↔ n ≠ 8 ∨ off % 8 ≠ 0 ∨ off ∈ [0x68, 0x70, 0x78] ∨ 128 ≤ off ∨
      off ∈ [0x08, 0x18, 0x30, 0x38, 0x48, 0x50, 0x58, 0x60] := by
  simp only [LegalAccess, List.mem_cons, List.not_mem_nil, or_false]
  omega

/-! ## Illegal accesses at the port -/

/-- A readable register has a value, and a read of it answers that value (R54). -/
theorem readAnswer_of_readable {r : Reg} (hr : r.readable = true) (e : Engine) :
    ∃ v, readReg r e = some v ∧ readAnswer r.offset 8 e = .okData v := by
  obtain ⟨v, hv⟩ : ∃ v, readReg r e = some v := by
    cases r with
    | cmd => cases hr
    | _ => exact ⟨_, rfl⟩
  exact ⟨v, hv, by simp only [readAnswer, checkAccess_allowed (kind := .read) hr, hv]⟩

/-- A read answers ERR exactly when it is not legal: a legal one has a value to answer (R53, R54). -/
theorem readAnswer_eq_err_iff (off n : Nat) (e : Engine) : readAnswer off n e = .err ↔ ¬ LegalAccess .read off n := by
  constructor
  · intro herr hlegal
    obtain ⟨r, rfl, rfl, hr⟩ := (legalAccess_iff_register .read off n).1 hlegal
    obtain ⟨v, -, answered⟩ := readAnswer_of_readable hr e
    exact nomatch answered.symm.trans herr
  · intro hillegal
    obtain ⟨f, hf⟩ := checkAccess_error_of_not_legal hillegal
    simp only [readAnswer, hf]

/-- A write answers ERR exactly when it is not legal (R53, R55). -/
theorem deliverAnswers_memWrite_eq_err_iff (off n : Nat) (v : BitVec (8 * n)) (e : Engine) :
    deliverAnswers (.memWrite off n v) e = [.err] ↔ ¬ LegalAccess .write off n := by
  rw [← checkAccess_passes_iff_legal]
  cases hc : checkAccess .write off n <;> simp [deliverAnswers, hc]

/-- An illegal write stores nothing and executes nothing (R175). -/
theorem deliverEngine_memWrite_of_not_legal {off n : Nat} (v : BitVec (8 * n)) (e : Engine)
    (h : ¬ LegalAccess .write off n) : deliverEngine (.memWrite off n v) e = e := by
  obtain ⟨f, hf⟩ := checkAccess_error_of_not_legal h
  simp only [deliverEngine, hf]

/-- Settles O11: each kind of access answers ERR exactly when it is not legal; a read leaves the engine in any case, and
an illegal write does. -/
theorem accessFaultsAnswerErrAndChangeNothing : Obligations.AccessFaultsAnswerErrAndChangeNothing := by
  intro s off n rest
  constructor
  · intro hin
    refine ⟨_, step_cons hin, rfl, ?_, fun _ => rfl⟩
    rw [List.append_cancel_left_eq, ← not_legalAccess_read_iff, ← readAnswer_eq_err_iff off n s.engine]
    exact List.singleton_inj
  · intro v hin
    have answers_err_iff := deliverAnswers_memWrite_eq_err_iff off n v s.engine
    refine ⟨_, step_cons hin, rfl, ?_, fun herr => ?_⟩
    · rw [List.append_cancel_left_eq, ← not_legalAccess_write_iff]
      exact answers_err_iff
    · exact deliverEngine_memWrite_of_not_legal v s.engine (answers_err_iff.1 (List.append_cancel_left herr))

/-! ## Legal accesses as steps -/

/-- A step that writes a word to CMD runs it and answers OK (R55, R75). -/
theorem step_commandWrite {s : State} {w : Word} {rest : List HostEvent} (h : s.incoming = commandWrite w :: rest) :
    step s = .next
      { engine := writeCommandEngine w s.engine, incoming := rest, answers := s.answers ++ [.ok] } := by
  have passes : checkAccess .write 0x00 8 = .ok .cmd := checkAccess_allowed (r := .cmd) rfl
  simpa [commandWrite, deliverEngine, deliverAnswers, passes] using step_cons h

/-- A step that writes a writable register other than CMD stores to it and answers OK, whatever ERR is (R55). -/
theorem step_wr {s : State} {r : Reg} {v : Word} {rest : List HostEvent} (hcmd : r ≠ .cmd) (hr : r.writable = true)
    (h : s.incoming = wr r v :: rest) :
    step s = .next { engine := writeReg r v s.engine, incoming := rest, answers := s.answers ++ [.ok] } := by
  have passes : checkAccess .write r.offset 8 = .ok r := checkAccess_allowed hr
  simpa [wr, deliverEngine, deliverAnswers, passes, hcmd] using step_cons h

/-- A step that reads a readable register answers its value and leaves the engine, whatever ERR is (R54). -/
theorem step_rd {s : State} {r : Reg} {rest : List HostEvent} (hr : r.readable = true)
    (h : s.incoming = rd r :: rest) :
    ∃ v, readReg r s.engine = some v ∧
      step s = .next { s with incoming := rest, answers := s.answers ++ [.okData v] } := by
  obtain ⟨v, hv, answered⟩ := readAnswer_of_readable hr s.engine
  exact ⟨v, hv, by simpa [rd, deliverEngine, deliverAnswers, answered] using step_cons h⟩

/-! ## The sticky fault state -/

theorem Reg.readable_of_ne_cmd {r : Reg} (h : r ≠ .cmd) : r.readable = true := by
  cases r with
  | cmd => exact absurd rfl h
  | _ => rfl

/-- The four registers the host writes as data are writable, and CMD is none of them (R51). -/
theorem dataRegister_writable : ∀ r ∈ [Reg.seed, .din0, .din1, .vin], r ≠ .cmd ∧ r.writable = true := by decide

/-- Settles O28: with ERR = 1 a word other than 0x0F leaves the engine; reads and writes of data do not ask for ERR. -/
theorem stickyFaultIgnoresEveryOtherWord : Obligations.StickyFaultIgnoresEveryOtherWord := by
  intro s w rest herr
  refine ⟨fun hin hw => ?command, fun r hr hin => ?write,
    fun r hcmd hin => step_rd (Reg.readable_of_ne_cmd hcmd) hin⟩
  case command =>
    have ignored : writeCommandEngine w s.engine = s.engine := by rw [writeCommandEngine_of_err w herr, if_neg hw]
    rw [step_commandWrite hin, ignored]
  case write =>
    obtain ⟨hcmd, writable⟩ := dataRegister_writable r hr
    exact step_wr hcmd writable hin

end Sys2Proof.Machine
end

section
/-! PROOF. The state after reset (70_reset_and_hazards.md R200, R201): every element is zero, so every readable register
reads 0. -/

namespace Sys2Proof.Machine

/-- A step that delivers a reset puts the engine in the reset state, whatever it was, and answers nothing (R200, R212). -/
theorem step_reset {s : State} {rest : List HostEvent} (h : s.incoming = .reset :: rest) :
    step s = .next { engine := Engine.reset, incoming := rest, answers := s.answers } := by
  simpa only [deliverEngine, deliverAnswers, List.append_nil] using step_cons h

/-- PHASE is IDLE, coded 0, and the other fields of STATUS are zero (R28, R32). -/
theorem status_engine_reset : Engine.reset.status = 0 := by decide

theorem readReg_engine_reset {r : Reg} (h : r ≠ .cmd) : readReg r Engine.reset = some 0 := by
  cases r with
  | cmd => exact absurd rfl h
  | status => exact congrArg some status_engine_reset
  | _ => rfl

/-- Settles O34: each of the two engines is `Engine.reset`, the one after a delivered reset by `step_reset`. -/
theorem everyRegisterReadsZeroAfterReset : Obligations.EveryRegisterReadsZeroAfterReset := by
  intro e he
  obtain rfl : e = Engine.reset := by
    obtain rfl | ⟨s, t, rest, hin, hstep, rfl⟩ := he
    · rfl
    · obtain rfl := Host.Outcome.next.inj ((step_reset hin).symm.trans hstep)
      rfl
  exact ⟨rfl, status_engine_reset, fun _ hcmd => readReg_engine_reset hcmd⟩

end Sys2Proof.Machine
end

section
/-! PROOF. The command word (30_encoding.md R70 to R72): the encoder and the decoder are inverse to each other on the
well-formed commands. -/

namespace Sys2Proof

/-- The table's words of 64 bits are the machine's command words. -/
theorem decodeTableWord_of_decode {w : Word} {i : Instr} (h : decode w = .ok i) :
    decodeTableWord 64 w.toNat = some i := by
  have number : w.toNat % 2 ^ 64 = w.toNat := Nat.mod_eq_of_lt w.isLt
  simp only [decodeTableWord, number, w.isLt, if_true, BitVec.ofNat_toNat, BitVec.setWidth_eq, h]

/-- Settles O1: the word of a well-formed command decodes to it, and the table's decoder reads the same word. -/
theorem decodeOfEncodeIsIdentity : Obligations.DecodeOfEncodeIsIdentity := by
  intro i hwf
  have decoded := decode_encode_of_wf hwf
  exact ⟨decoded, decodeTableWord_of_decode decoded⟩

/-- Settles O2: the other direction of `decode_eq_ok_iff_encode`. -/
theorem decodedWordIsTheCommandsWord : Obligations.DecodedWordIsTheCommandsWord :=
  fun w i h => (decode_eq_ok_iff_encode w i).1 h

/-- Settles O4: fifteen closed words, each run through the decoder. -/
theorem sampleWordsDecodeAsTabulated : Obligations.SampleWordsDecodeAsTabulated := by
  unfold Obligations.SampleWordsDecodeAsTabulated
  decide

end Sys2Proof
end

section
/-! PROOF. The invariants of the state (10_state.md R41): what each effect on the engine needs to keep them, and that
every step does. -/

namespace Sys2Proof.Machine

/-! ## What each effect keeps -/

theorem inv_engine_reset : Engine.reset.Inv where
  ecode_zero := by decide
  ecode_le := by decide
  vlen_zero := by decide
  vlen_le := by decide
  vout_above := by decide
  vout1_high := by decide
  fp_current := nofun
  idle_zero _ := ⟨rfl, rfl, rfl⟩
  absorb_len := nofun

/-- The codes of R171 are 1 to 3. -/
theorem CmdFault.code_range (c : CmdFault) : c.code ≠ 0 ∧ c.code.toNat ≤ 3 := by cases c <;> decide

theorem inv_cmdFault (c : CmdFault) {e : Engine} (h : e.Inv) : (cmdFault c e).Inv :=
  { h with
    ecode_zero := iff_of_false c.code_range.1 (by simp)
    ecode_le := c.code_range.2 }

/-- The registers that the host writes are in none of the invariants. -/
theorem inv_hostRegisters {e : Engine} (h : e.Inv) (seed : BitVec 32) (din0 din1 vin : Word) :
    ({ e with seed := seed, din0 := din0, din1 := din1, vin := vin } : Engine).Inv :=
  { h with }

theorem inv_writeReg (r : Reg) (v : Word) {e : Engine} (h : e.Inv) : (writeReg r v e).Inv := by
  rw [writeReg_frame]
  exact inv_hostRegisters h _ _ _ _

/-- What a hash command leaves: accumulators, counter and phase of its own, and no fingerprint. -/
theorem inv_hashUpdate {e : Engine} (h : e.Inv) (h1 h2 : Word) {len : Word} {p : Phase} (hopen : p ≠ .idle)
    (hlen : p = .absorb → len.toNat % 16 = 0) :
    ({ e with h1 := h1, h2 := h2, len := len, phase := p, fpvalid := false } : Engine).Inv :=
  { h with
    fp_current := nofun
    idle_zero := fun hidle => absurd hidle hopen
    absorb_len := hlen }

theorem inv_openMessage {e : Engine} (h : e.Inv) : (openMessage e).Inv :=
  inv_hashUpdate h _ _ nofun fun _ => rfl

theorem inv_absorbBlock {e : Engine} (h : e.Inv) (hphase : e.phase = .absorb) : (absorbBlock e).Inv := by
  have hfp : e.fpvalid = false := h.fpvalid_eq_false (by simp [hphase])
  have counted : (e.len + 16).toNat % 16 = 0 := by
    have := h.absorb_len hphase
    rw [BitVec.toNat_add, show (16 : Word).toNat = 16 from rfl]
    omega
  have after := inv_hashUpdate h (blockMix e.h1 e.h2 e.din0 e.din1).1 (blockMix e.h1 e.h2 e.din0 e.din1).2
    (p := e.phase) (by simp [hphase]) fun _ => counted
  rwa [← hfp] at after

theorem inv_absorbTail (n : Nat) {e : Engine} (h : e.Inv) (hphase : e.phase = .absorb) : (absorbTail n e).Inv := by
  have hfp : e.fpvalid = false := h.fpvalid_eq_false (by simp [hphase])
  have after := inv_hashUpdate h (absorbTail n e).h1 (absorbTail n e).h2 (len := (absorbTail n e).len)
    (p := .tailed) nofun nofun
  rwa [← hfp] at after

/-- The phases in which FINAL is legal lie between INIT and DONE. -/
theorem Phase.ne_of_open {p : Phase} (h : p = .absorb ∨ p = .tailed) : p ≠ .idle ∧ p ≠ .done := by
  rcases h with rfl | rfl <;> decide

theorem inv_finalizeMessage {e : Engine} (h : e.Inv) (hphase : e.phase = .absorb ∨ e.phase = .tailed) :
    (finalizeMessage e).Inv := by
  have hfp : e.fpvalid = false := h.fpvalid_eq_false (Phase.ne_of_open hphase).2
  have after := inv_hashUpdate h (finalizeMessage e).h1 (finalizeMessage e).h2 (len := e.len) (p := .done) nofun nofun
  rwa [← hfp] at after

/-- Bytes 2 to 7 of a word are its bits 63 to 16. -/
theorem extractLsb'_of_bytes_above_two {v : Word} (h : ∀ j, 2 ≤ j → j < 8 → byteOf v j = 0) :
    v.extractLsb' 16 48 = 0 := by
  refine BitVec.eq_of_getLsbD_eq fun i hi => ?_
  have bit := byteOf_getLsbD v ((16 + i) / 8) ((16 + i) % 8) (Nat.mod_lt _ (by decide))
  rw [h _ (by omega) (by omega), Nat.div_add_mod] at bit
  simpa [hi] using bit.symm

/-- The bytes of the padded encoding past the encoding are zeros (R132). -/
theorem encodeVin_vout_above (e : Engine) :
    (bytesOfPair (encodeVin e).vout0 (encodeVin e).vout1).drop (encodeVin e).vlen.toNat =
      List.replicate (16 - (encodeVin e).vlen.toNat) 0 := by
  rw [encodeVin_bytes, encodeVin_vlen_toNat, paddedVarint, List.drop_left]

theorem encodeVin_vout1_high (e : Engine) : (encodeVin e).vout1.extractLsb' 16 48 = 0 := by
  refine extractLsb'_of_bytes_above_two fun j hj hj8 => ?_
  have short := varint_length_le e.vin
  have byte := bytesOfPair_getElem? (encodeVin e).vout0 (encodeVin e).vout1 (j + 8) (by omega)
  rw [encodeVin_bytes, paddedVarint_getElem? _ (by omega), if_neg (by omega), if_neg (by omega), if_neg (by omega),
    Nat.add_sub_cancel] at byte
  exact (Option.some.inj byte).symm

theorem inv_encodeVin {e : Engine} (h : e.Inv) : (encodeVin e).Inv where
  ecode_zero := by simpa using h.ecode_zero
  ecode_le := by simpa using h.ecode_le
  vlen_zero := by
    have nonzero : (encodeVin e).vlen ≠ 0 := by
      have := varint_length_pos e.vin
      rw [← encodeVin_vlen_toNat] at this
      exact fun h0 => absurd (h0 ▸ this) (by decide)
    exact iff_of_false nonzero (by simp)
  vlen_le := (encodeVin_vlen_toNat e).trans_le (varint_length_le e.vin)
  vout_above := encodeVin_vout_above e
  vout1_high := encodeVin_vout1_high e
  fp_current := by simp
  idle_zero := by simpa using h.idle_zero
  absorb_len := by simpa using h.absorb_len

/-- COMPOSE leaves the composition of the encoding and the digest in FP0, FP1 (R141). -/
theorem composeFingerprint_fingerprint (e : Engine) :
    (composeFingerprint e).fingerprint = overlay e.vlen (bytesOfPair e.vout0 e.vout1) e.digest := by
  rw [composeFingerprint_eq]
  exact bytesOfPair_le64 (overlay_digest_length e)

theorem compose_eq_composeFingerprint (e : Engine) :
    compose e.encoding e.digest = some (composeFingerprint e).fingerprint := by
  rw [compose_encoding_digest, composeFingerprint_fingerprint]

theorem inv_composeFingerprint {e : Engine} (h : e.Inv) (hphase : e.phase = .done) (hvalid : e.vvalid = true) :
    (composeFingerprint e).Inv :=
  { h with
    fp_current := fun _ => ⟨hphase, hvalid, compose_eq_composeFingerprint e⟩ }

/-! ## Commands and steps -/

theorem inv_execEngine (i : Instr) {e : Engine} (h : e.Inv) : (execEngine i e).Inv := by
  cases herr : e.err with
  | true =>
    rw [execEngine_of_err i herr]
    split
    · exact inv_engine_reset
    · exact h
  | false =>
    rcases execEngine_cases i e herr with
      ⟨-, heq⟩ | ⟨-, heq⟩ | ⟨-, heq⟩ | ⟨-, heq⟩ | ⟨-, hp, heq⟩ | ⟨n, -, hp, heq⟩ | ⟨-, hp, heq⟩ | ⟨-, hp, hv, heq⟩ |
        ⟨-, -, heq⟩ | ⟨-, -, -, heq⟩ | ⟨-, -, heq⟩ <;> rw [heq]
    · exact h
    · exact inv_engine_reset
    · exact inv_openMessage h
    · exact inv_encodeVin h
    · exact inv_absorbBlock h hp
    · exact inv_absorbTail n h hp
    · exact inv_finalizeMessage h hp
    · exact inv_composeFingerprint h hp hv
    · exact inv_cmdFault .sequence h
    · exact inv_cmdFault .sequence h
    · exact inv_cmdFault .notReady h

theorem inv_writeCommandEngine (w : Word) {e : Engine} (h : e.Inv) : (writeCommandEngine w e).Inv := by
  unfold writeCommandEngine
  split
  · exact inv_execEngine _ h
  · split
    · exact h
    · exact inv_cmdFault .illegalCmd h

/-- Settles O37: a step leaves the engine, resets it, writes a register or runs a word, and each keeps the invariants. -/
theorem everyStepKeepsTheInvariants : Obligations.EveryStepKeepsTheInvariants := by
  intro s t h hstep
  rcases step_engine_cases hstep with heq | ⟨-, heq⟩ | ⟨r, v, -, -, -, heq⟩ | ⟨w, -, heq⟩ <;> rw [heq]
  · exact h
  · exact inv_engine_reset
  · exact inv_writeReg r v h
  · exact inv_writeCommandEngine w h

/-- Settles O36: every element is zero. -/
theorem resetMeetsTheInvariants : Obligations.ResetMeetsTheInvariants := inv_engine_reset

/-! ## COMPOSE in a state that meets the invariants -/

theorem encoding_getElem? (e : Engine) {i : Nat} (h : i < e.vlen.toNat) :
    e.encoding[i]? = (bytesOfPair e.vout0 e.vout1)[i]? := by
  rw [Engine.encoding, List.getElem?_take, if_pos h]

/-- VLEN is not zero when there is an encoding (R41 (b)). -/
theorem Engine.Inv.vlen_pos {e : Engine} (h : e.Inv) (hvalid : e.vvalid = true) : 1 ≤ e.vlen.toNat := by
  have nonzero : e.vlen ≠ 0 := fun h0 => absurd (hvalid.symm.trans (h.vlen_zero.1 h0)) (by decide)
  exact Nat.pos_of_ne_zero fun h0 => nonzero (BitVec.eq_of_toNat_eq h0)

/-- Settles O25: the invariant bounds VLEN, and the fingerprint is the encoding and then the digest's bytes. -/
theorem composeCompletesWheneverReady : Obligations.ComposeCompletesWheneverReady := by
  intro s h herr hphase hvalid
  have fingerprint : (composeFingerprint s.engine).fingerprint =
      s.engine.encoding ++ s.engine.digest.drop s.engine.encoding.length :=
    (composeFingerprint_fingerprint _).trans (overlay_eq_encoding_append _)
  have short : s.engine.encoding.length ≤ 10 := (encoding_length _).trans_le h.vlen_le
  refine ⟨h.vlen_pos hvalid, h.vlen_le, _, exec_compose_of_ready s herr hphase hvalid,
    inv_composeFingerprint h hphase hvalid, composeFingerprint_fpvalid _, rfl, ?_, fun i _ => ?_⟩
  · rw [State.withEngine_engine, fingerprint, drop_append_drop_length _ short]
  · rw [State.withEngine_engine, fingerprint, append_drop_getElem?, encoding_length]
    exact ite_congr rfl (encoding_getElem? _) fun _ => rfl

end Sys2Proof.Machine
end

section
/-! PROOF. Rotation (00_scope.md R9), the finalization mix (40_murmur3_engine.md R96), the tail by halves (R103), and the
little-endian byte order (00_scope.md R11, 20_memory.md R56). -/

namespace Sys2Proof.Machine

/-! ## Rotation -/

/-- Bit `i` moves to bit `i + r`, wrapping at 64: the left shift holds it below the wrap, the right shift above. -/
theorem rotl64_getLsbD (x : Word) {r i : Nat} (hr : r < 64) (hi : i < 64) :
    (rotl64 x r).getLsbD ((i + r) % 64) = x.getLsbD i := by
  rw [rotl64, BitVec.getLsbD_or, BitVec.getLsbD_shiftLeft, BitVec.getLsbD_ushiftRight]
  by_cases h : i + r < 64
  · rw [Nat.mod_eq_of_lt h, BitVec.getLsbD_of_ge x (64 - r + (i + r)) (by omega)]
    simp [h]
  · have wrapped : (i + r) % 64 = i + r - 64 := by omega
    rw [wrapped, show 64 - r + (i + r - 64) = i by omega]
    simp [show i + r - 64 < r by omega]

/-- Settles O40: by bits, `rotl64_getLsbD`; by numbers, the two shifts. -/
theorem rotationMovesEveryBitLeft : Obligations.RotationMovesEveryBitLeft :=
  fun x r _ hr => ⟨fun _ hi => rotl64_getLsbD x hr hi, rotl64_toNat x r⟩

/-! ## Fmix64 -/

theorem xorShift33_toNat (x : Word) : (xorShift33 x).toNat = x.toNat ^^^ (x.toNat / 2 ^ 33) := by
  rw [xorShift33, BitVec.toNat_xor, BitVec.toNat_ushiftRight, Nat.shiftRight_eq_div_pow]

/-- The bits shifted twice by 33 are gone, so the second application undoes the first. -/
theorem xorShift33_involutive : Function.Involutive xorShift33 := by
  intro x
  have gone : x >>> 33 >>> 33 = 0 := by
    rw [← BitVec.shiftRight_add]
    exact BitVec.ushiftRight_eq_zero (by decide)
  rw [xorShift33, xorShift33, BitVec.ushiftRight_xor_distrib, gone]
  simp

theorem mul_bijective_of_inverse {a b : Word} (h : a * b = 1) : Function.Bijective fun x : Word => x * a := by
  refine Function.bijective_iff_has_inverse.2 ⟨(· * b), fun x => ?_, fun x => ?_⟩
  · exact (BitVec.mul_assoc x a b).trans ((congrArg (x * ·) h).trans (BitVec.mul_one x))
  · exact (BitVec.mul_assoc x b a).trans ((congrArg (x * ·) ((BitVec.mul_comm b a).trans h)).trans (BitVec.mul_one x))

/-- The two multipliers of R90 are odd; these are their inverses modulo 2^64. -/
theorem f1_inverse : f1 * 0x4f74430c22a54005 = 1 := by decide

theorem f2_inverse : f2 * 0x9cb4b2f8129337db = 1 := by decide

theorem f1_toNat : f1.toNat = 0xff51afd7ed558ccd := rfl

theorem f2_toNat : f2.toNat = 0xc4ceb9fe1a85ec53 := rfl

theorem fmix64_bijective : Function.Bijective fmix64 := by
  have shift := xorShift33_involutive.bijective
  exact shift.comp ((mul_bijective_of_inverse f2_inverse).comp
    (shift.comp ((mul_bijective_of_inverse f1_inverse).comp shift)))

/-- Settles O44: the steps are two products and three times `xorShift33`, each a bijection. -/
theorem fmixIsTheFiveStepBijection : Obligations.FmixIsTheFiveStepBijection := by
  refine ⟨?_, by decide, by decide, fmix64_bijective⟩
  intro x xs
  have shift (y : Word) : (xorShift33 y).toNat = xs y.toNat := xorShift33_toNat y
  rw [fmix64, shift, BitVec.toNat_mul, shift, BitVec.toNat_mul, shift, f1_toNat, f2_toNat]

/-! ## The tail by halves -/

/-- Settles O46: the word of an empty half is zero, and mixing zero changes nothing. -/
theorem conditionalTailAgrees : Obligations.ConditionalTailAgrees := by
  intro h1 h2 d0 d1 n k
  rcases Nat.lt_or_ge n 9 with hn | hn
  · have second : k.2 = 0 := congrArg Prod.snd (tailWords_of_le_eight d0 d1 (Nat.le_of_lt_succ hn))
    rw [if_neg (show ¬ 9 ≤ n by omega), second, tailMix, mixK2_zero]
    rcases Nat.eq_zero_or_pos n with rfl | hpos
    · have first : k.1 = 0 := congrArg Prod.fst (tailWords_zero d0 d1)
      rw [if_neg (by decide), first, mixK1_zero]
      exact congrArg₂ Prod.mk BitVec.xor_zero BitVec.xor_zero
    · rw [if_pos (show 1 ≤ n from hpos)]
      exact congrArg _ BitVec.xor_zero
  · rw [if_pos hn, if_pos (show 1 ≤ n by omega), tailMix]

/-! ## Registers and bytes -/

theorem byteOf_eq_ofNat (v : Word) (i : Nat) : byteOf v i = BitVec.ofNat 8 (v.toNat / 2 ^ (8 * i)) := by
  rw [← Nat.shiftRight_eq_div_pow]
  rfl

@[simp] theorem le64_bytesLe (v : Word) : le64 (bytesLe v 8) = v := by
  refine word_eq_of_bytes fun j hj => ?_
  rw [byteOf_le64 _ j hj, List.getD_eq_getElem?_getD, bytesLe_getElem? v 8 j hj, Option.getD_some]

theorem bytesLe_le64 {b : List Byte} (h : b.length = 8) : bytesLe (le64 b) 8 = b := by
  refine List.ext_getElem? fun i => ?_
  by_cases hi : i < 8
  · rw [bytesLe_getElem? _ 8 i hi, byteOf_le64 b i hi, List.getD_eq_getElem?_getD, List.getElem?_eq_getElem (by omega),
      Option.getD_some]
  · rw [List.getElem?_eq_none (by simpa using hi), List.getElem?_eq_none (by omega)]

/-- The first digit of a positional sum in base `2^k`, and the rest. -/
theorem sum_digits_succ (d : Nat → Nat) (k n : Nat) :
    ((List.range (n + 1)).map fun i => d i * 2 ^ (k * i)).sum =
      d 0 + 2 ^ k * ((List.range n).map fun i => d (i + 1) * 2 ^ (k * i)).sum := by
  have shifted (i : Nat) : d (i + 1) * 2 ^ (k * (i + 1)) = 2 ^ k * (d (i + 1) * 2 ^ (k * i)) := by ring
  simp [List.range_succ_eq_map, Function.comp_def, shifted, List.sum_map_mul_left]

/-- Less than 8 bytes above the first leave room for it. -/
theorem le64_cons_toNat (x : Byte) {b : List Byte} (h : (le64 b).toNat < 2 ^ 56) :
    (le64 (x :: b)).toNat = x.toNat + 256 * (le64 b).toNat := by
  have := x.isLt
  rw [le64, BitVec.toNat_add, BitVec.toNat_mul, BitVec.toNat_setWidth, show (256 : Word).toNat = 256 from rfl]
  omega

theorem le64_toNat_lt {b : List Byte} (h : b.length ≤ 8) : (le64 b).toNat < 2 ^ (8 * b.length) := by
  induction b with
  | nil => decide
  | cons x b ih =>
    have := x.isLt
    have room := ih (Nat.le_of_succ_le h)
    have wide : 2 ^ (8 * b.length) ≤ 2 ^ 56 := Nat.pow_le_pow_right (by decide) (by simp at h; omega)
    rw [le64_cons_toNat x (room.trans_le wide), List.length_cons, Nat.mul_succ, Nat.pow_add]
    omega

/-- The number of at most eight bytes (R11). -/
theorem le64_toNat_eq_sum {b : List Byte} (h : b.length ≤ 8) :
    (le64 b).toNat = ((List.range b.length).map fun i => (b.getD i 0).toNat * 2 ^ (8 * i)).sum := by
  induction b with
  | nil => rfl
  | cons x b ih =>
    have short : b.length ≤ 7 := Nat.le_of_succ_le_succ h
    have wide : 2 ^ (8 * b.length) ≤ 2 ^ 56 := Nat.pow_le_pow_right (by decide) (by omega)
    rw [le64_cons_toNat x ((le64_toNat_lt (by omega)).trans_le wide), ih (by omega), List.length_cons,
      sum_digits_succ (fun i => ((x :: b).getD i 0).toNat)]
    simp

/-- Settles O47: a register's bytes one by one, `le64` as their sum, and the two inverse to each other. -/
theorem registersAreLittleEndian : Obligations.RegistersAreLittleEndian :=
  ⟨fun v => ⟨bytesLe_length v 8, le64_bytesLe v,
    fun i hi => (bytesLe_getElem? v 8 i hi).trans (congrArg some (byteOf_eq_ofNat v i))⟩,
    fun _ => bytesLe_le64, fun _ => le64_toNat_eq_sum⟩

end Sys2Proof.Machine
end

section
/-! PROOF. The reference hash (40_murmur3_engine.md R98) of a message that grows by a block or a tail, and its closed
values (R106). -/

namespace Sys2Proof.Machine

/-! ## Slices -/

theorem slice_zero_eight (b : List Byte) : slice b 0 8 = b.take 8 := rfl

theorem slice_zero_min (b : List Byte) : slice b 0 (min b.length 8) = b.take 8 := by
  rw [Nat.min_comm]
  exact List.take_eq_take_min.symm

theorem slice_eight_length (b : List Byte) : slice b 8 b.length = b.drop 8 :=
  List.take_of_length_le (by simp)

/-- The bytes past a beginning of `k` bytes. -/
theorem slice_append_right (a b : List Byte) (j : Nat) : slice (a ++ b) a.length (a.length + j) = b.take j := by
  rw [slice, List.drop_left, Nat.add_sub_cancel_left]

/-! ## A message that grows -/

/-- One more whole block is one more block step. -/
theorem murmurBlocks_append_block (m b : List Byte) (seed : BitVec 32) (hm : m.length % 16 = 0)
    (hb : b.length = 16) :
    murmurBlocks (m ++ b) seed ((m ++ b).length / 16) =
      blockMix (murmurBlocks m seed (m.length / 16)).1 (murmurBlocks m seed (m.length / 16)).2
        (le64 (b.take 8)) (le64 (b.drop 8)) := by
  have start : 16 * (m.length / 16) = m.length := by omega
  have blocks : (m ++ b).length / 16 = m.length / 16 + 1 := by rw [List.length_append]; omega
  have second : slice (m ++ b) (m.length + 8) (m.length + 16) = b.drop 8 := by
    rw [slice, ← List.drop_drop, List.drop_left, show m.length + 16 - (m.length + 8) = 8 by omega,
      List.take_of_length_le (by simp [hb])]
  rw [blocks, murmurBlocks, start, murmurBlocks_append _ _ _ _ start.le, slice_append_right, second]

/-- A tail after whole blocks is mixed in as its first eight bytes and the rest. -/
theorem murmurAbsorbed_append_tail (m b : List Byte) (seed : BitVec 32) (hm : m.length % 16 = 0)
    (hb : b.length ≤ 15) :
    murmurAbsorbed (m ++ b) seed =
      tailMix (murmurBlocks m seed (m.length / 16)).1 (murmurBlocks m seed (m.length / 16)).2
        (le64 (b.take 8)) (le64 (b.drop 8)) := by
  have start : 16 * (m.length / 16) = m.length := by omega
  have blocks : (m ++ b).length / 16 = m.length / 16 := by rw [List.length_append]; omega
  have count : (m ++ b).length % 16 = b.length := by rw [List.length_append]; omega
  have tail : slice (m ++ b) m.length (m ++ b).length = b := by
    rw [List.length_append, slice_append_right, List.take_length]
  simp only [murmurAbsorbed, blocks, count, start, tail, murmurBlocks_append _ _ _ _ start.le, slice_zero_min,
    slice_eight_length]

/-- A message of whole blocks has no tail to mix in. -/
theorem murmurAbsorbed_of_whole_blocks (m : List Byte) (seed : BitVec 32) (hm : m.length % 16 = 0) :
    murmurAbsorbed m seed = murmurBlocks m seed (m.length / 16) := by
  have absorbed := murmurAbsorbed_append_tail m [] seed hm (Nat.zero_le 15)
  rw [List.append_nil] at absorbed
  exact absorbed.trans (tailMix_zero _ _)

/-! ## Zero bytes -/

theorem le64_replicate_zero (n : Nat) : le64 (List.replicate n 0) = 0 := by
  refine word_eq_of_bytes fun j hj => ?_
  rw [byteOf_le64 _ j hj, List.getD_eq_getElem?_getD, List.getElem?_replicate]
  split <;> exact BitVec.extractLsb'_zero.symm

theorem murmurWords_zero_bytes {n : Nat} (hn : n ≤ 15) :
    murmurWords (List.replicate n 0) 0 = finalize 0 0 (BitVec.ofNat 64 n) := by
  have absorbed : murmurAbsorbed (List.replicate n 0) 0 = (0, 0) := by
    have tail := murmurAbsorbed_append_tail [] (List.replicate n 0) 0 rfl (by simpa using hn)
    rw [List.nil_append, List.take_replicate, List.drop_replicate, le64_replicate_zero, le64_replicate_zero] at tail
    exact tail.trans (tailMix_zero _ _)
  rw [murmurWords, absorbed, List.length_replicate]

theorem murmur3_nil : murmur3 [] 0 = List.replicate 16 0 := by
  have words : murmurWords [] 0 = (0, 0) := (murmurWords_zero_bytes (Nat.zero_le 15)).trans finalize_zero
  rw [murmur3, words]
  decide

/-- Settles O48: the words of zero bytes are zero, and `finalize` begins with the two exclusive ORs. -/
theorem referenceHashFacts : Obligations.ReferenceHashFacts := by
  refine ⟨murmur3_nil, fun n => murmurWords_zero_bytes, ?_⟩
  intro h1 h2 len h1' h2' len' first second
  simp only [finalize, first, second]

end Sys2Proof.Machine
end

section
/-! PROOF. What the registers hold of the message, the seed and the value given (40_murmur3_engine.md R99 to R102,
42_varint.md R132, 43_compose.md R141), and that every step keeps it so. -/

namespace Sys2Proof.Machine

/-! ## The message's part of the state -/

/-- The part of `Engine.Meaningful` that speaks of the message and its seed (`meaningful_iff`): it reads H1, H2, LEN and
PHASE only. -/
structure Engine.Hashes (e : Engine) (msg : List Byte) (seed : BitVec 32) : Prop where
  idle : e.phase = .idle → msg = [] ∧ e.h1 = 0 ∧ e.h2 = 0 ∧ e.len = 0
  absorbing : e.phase = .absorb →
    msg.length % 16 = 0 ∧ (e.h1, e.h2) = murmurBlocks msg seed (msg.length / 16)
  tailed : e.phase = .tailed → (e.h1, e.h2) = murmurAbsorbed msg seed
  counted : e.phase ≠ .idle → e.len = BitVec.ofNat 64 msg.length
  finished : e.phase = .done → msg.length < 2 ^ 64 → e.digest = murmur3 msg seed

/-- The part of `Engine.Meaningful` that speaks of the encoded value (`meaningful_iff`): it reads VOUT0, VOUT1, VLEN and
VVALID only. -/
structure Engine.Encodes (e : Engine) (value : Option Word) : Prop where
  valid : e.vvalid = value.isSome
  encoded : ∀ v, value = some v → e.encoding = varint v

/-- The part of `Engine.Meaningful` that speaks of the fingerprint (`meaningful_iff`). -/
def Engine.Composed (e : Engine) (g : History) : Prop :=
  e.fpvalid = true → e.phase = .done ∧ ∃ v, g.value = some v ∧
    (g.message.length < 2 ^ 64 → compose (varint v) (murmur3 g.message g.seed) = some e.fingerprint)

theorem meaningful_iff (e : Engine) (g : History) :
    e.Meaningful g ↔ e.Hashes g.message g.seed ∧ e.Encodes g.value ∧ e.Composed g := by
  constructor
  · rintro ⟨idle, absorbing, tailed, counted, finished, valid, encoded, composed⟩
    exact ⟨⟨idle, absorbing, tailed, counted, finished⟩, ⟨valid, encoded⟩, composed⟩
  · rintro ⟨⟨idle, absorbing, tailed, counted, finished⟩, ⟨valid, encoded⟩, composed⟩
    exact ⟨idle, absorbing, tailed, counted, finished, valid, encoded, composed⟩

/-- Effects that leave H1, H2, LEN and PHASE leave the message's part. -/
theorem Engine.Hashes.of_eq {e f : Engine} {msg : List Byte} {seed : BitVec 32} (h : e.Hashes msg seed)
    (h1 : f.h1 = e.h1) (h2 : f.h2 = e.h2) (len : f.len = e.len) (phase : f.phase = e.phase) : f.Hashes msg seed where
  idle := by rw [phase, h1, h2, len]; exact h.idle
  absorbing := by rw [phase, h1, h2]; exact h.absorbing
  tailed := by rw [phase, h1, h2]; exact h.tailed
  counted := by rw [phase, len]; exact h.counted
  finished := by rw [phase, Engine.digest, h1, h2]; exact h.finished

/-- Effects that leave VOUT0, VOUT1, VLEN and VVALID leave the value's part. -/
theorem Engine.Encodes.of_eq {e f : Engine} {value : Option Word} (h : e.Encodes value) (vout0 : f.vout0 = e.vout0)
    (vout1 : f.vout1 = e.vout1) (vlen : f.vlen = e.vlen) (vvalid : f.vvalid = e.vvalid) : f.Encodes value where
  valid := vvalid.trans h.valid
  encoded := by rw [Engine.encoding, vout0, vout1, vlen]; exact h.encoded

theorem Engine.Composed.of_not_fpvalid {e : Engine} (g : History) (h : e.fpvalid = false) : e.Composed g :=
  fun hfp => absurd (hfp.symm.trans h) (by decide)

/-- With a message still open there is no fingerprint. -/
theorem Engine.Composed.fpvalid_eq_false {e : Engine} {g : History} (h : e.Composed g) (hphase : e.phase ≠ .done) :
    e.fpvalid = false := by
  rw [← Bool.not_eq_true]
  exact fun hfp => hphase (h hfp).1

/-! ## What INIT, BLOCK, TAIL and FINAL make of the message's part -/

theorem hashes_openMessage (e : Engine) : (openMessage e).Hashes [] e.seed where
  idle := by simp
  absorbing _ := by simp [murmurBlocks]
  tailed := by simp
  counted _ := openMessage_len e
  finished := by simp

theorem hashes_absorbBlock {e : Engine} {msg : List Byte} {seed : BitVec 32} (h : e.Hashes msg seed)
    (hphase : e.phase = .absorb) : (absorbBlock e).Hashes (msg ++ bytesOfPair e.din0 e.din1) seed where
  idle := by simp [hphase]
  absorbing _ := by
    obtain ⟨whole, blocks⟩ := h.absorbing hphase
    have h1 := congrArg Prod.fst blocks
    have h2 := congrArg Prod.snd blocks
    refine ⟨by simp [whole], ?_⟩
    rw [murmurBlocks_append_block _ _ _ whole (bytesOfPair_length _ _), ← h1, ← h2, bytesOfPair,
      List.take_left' (bytesLe_length _ 8), List.drop_left' (bytesLe_length _ 8), le64_bytesLe, le64_bytesLe,
      absorbBlock_h1, absorbBlock_h2]
  tailed := by simp [hphase]
  counted _ := by
    rw [absorbBlock_len, h.counted (by simp [hphase]), List.length_append, bytesOfPair_length, BitVec.ofNat_add]
    rfl
  finished := by simp [hphase]

theorem hashes_absorbTail {e : Engine} {msg : List Byte} {seed : BitVec 32} (h : e.Hashes msg seed)
    (hphase : e.phase = .absorb) {n : Nat} (hn : n ≤ 15) :
    (absorbTail n e).Hashes (msg ++ (bytesOfPair e.din0 e.din1).take n) seed where
  idle := by simp
  absorbing := by simp
  tailed _ := by
    obtain ⟨whole, blocks⟩ := h.absorbing hphase
    have h1 := congrArg Prod.fst blocks
    have h2 := congrArg Prod.snd blocks
    rw [murmurAbsorbed_append_tail _ _ _ whole (by simp; omega), ← h1, ← h2, absorbTail_h1, absorbTail_h2,
      tailWords_eq_le64, tailMix]
  counted _ := by
    rw [absorbTail_len, h.counted (by simp [hphase]), List.length_append, List.length_take, bytesOfPair_length,
      Nat.min_eq_left (by omega), BitVec.ofNat_add]
  finished := by simp

theorem hashes_finalizeMessage {e : Engine} {msg : List Byte} {seed : BitVec 32} (h : e.Hashes msg seed)
    (hphase : e.phase = .absorb ∨ e.phase = .tailed) : (finalizeMessage e).Hashes msg seed where
  idle := by simp
  absorbing := by simp
  tailed := by simp
  counted _ := by
    rw [finalizeMessage_len, h.counted (Phase.ne_of_open hphase).1]
  finished _ _ := by
    have absorbed : (e.h1, e.h2) = murmurAbsorbed msg seed := by
      rcases hphase with hp | hp
      · obtain ⟨whole, blocks⟩ := h.absorbing hp
        exact blocks.trans (murmurAbsorbed_of_whole_blocks msg seed whole).symm
      · exact h.tailed hp
    have counted : e.len = BitVec.ofNat 64 msg.length := h.counted (Phase.ne_of_open hphase).1
    rw [Engine.digest, finalizeMessage_h1, finalizeMessage_h2, murmur3, murmurWords, ← absorbed, counted]

/-! ## What VENC and COMPOSE make of the other two parts -/

theorem encoding_encodeVin (e : Engine) : (encodeVin e).encoding = varint e.vin := by
  rw [Engine.encoding, encodeVin_bytes, encodeVin_vlen_toNat, paddedVarint, List.take_left]

theorem encodes_encodeVin (e : Engine) : (encodeVin e).Encodes (some e.vin) where
  valid := encodeVin_vvalid e
  encoded v hv := by rw [encoding_encodeVin, Option.some.inj hv]

/-- COMPOSE overlays the value's encoding on the message's digest. -/
theorem composed_composeFingerprint {e : Engine} {g : History} (hashes : e.Hashes g.message g.seed)
    (encodes : e.Encodes g.value) (hphase : e.phase = .done) (hvalid : e.vvalid = true) :
    (composeFingerprint e).Composed g := by
  intro _
  obtain ⟨v, hv⟩ := Option.isSome_iff_exists.1 (encodes.valid.symm.trans hvalid)
  refine ⟨(composeFingerprint_phase e).trans hphase, v, hv, fun hlt => ?_⟩
  rw [← encodes.encoded v hv, ← hashes.finished hphase hlt, compose_eq_composeFingerprint]

/-! ## What each effect makes of all three -/

/-- With the right registers left alone, nothing given is forgotten. -/
theorem meaningful_of_eq {e f : Engine} {g : History} (h : e.Meaningful g) (h1 : f.h1 = e.h1) (h2 : f.h2 = e.h2)
    (len : f.len = e.len) (phase : f.phase = e.phase) (vout0 : f.vout0 = e.vout0) (vout1 : f.vout1 = e.vout1)
    (vlen : f.vlen = e.vlen) (vvalid : f.vvalid = e.vvalid) (fp0 : f.fp0 = e.fp0) (fp1 : f.fp1 = e.fp1)
    (fpvalid : f.fpvalid = e.fpvalid) : f.Meaningful g := by
  obtain ⟨hashes, encodes, composed⟩ := (meaningful_iff e g).1 h
  refine (meaningful_iff f g).2
    ⟨hashes.of_eq h1 h2 len phase, encodes.of_eq vout0 vout1 vlen vvalid, ?_⟩
  rw [Engine.Composed, fpvalid, phase, Engine.fingerprint, fp0, fp1]
  exact composed

theorem meaningful_cmdFault (c : CmdFault) {e : Engine} {g : History} (h : e.Meaningful g) :
    (cmdFault c e).Meaningful g :=
  meaningful_of_eq h rfl rfl rfl rfl rfl rfl rfl rfl rfl rfl rfl

theorem meaningful_writeReg (r : Reg) (v : Word) {e : Engine} {g : History} (h : e.Meaningful g) :
    (writeReg r v e).Meaningful g := by
  rw [writeReg_frame]
  exact meaningful_of_eq h rfl rfl rfl rfl rfl rfl rfl rfl rfl rfl rfl

theorem meaningful_engine_reset : Engine.reset.Meaningful .fresh := by
  refine (meaningful_iff _ _).2
    ⟨⟨fun _ => ⟨rfl, rfl, rfl, rfl⟩, nofun, nofun, fun h => absurd rfl h, nofun⟩, ⟨rfl, nofun⟩,
      .of_not_fpvalid _ rfl⟩

theorem meaningful_openMessage {e : Engine} {g : History} (h : e.Meaningful g) :
    (openMessage e).Meaningful (g.afterCommand .init e) := by
  obtain ⟨-, encodes, -⟩ := (meaningful_iff e g).1 h
  exact (meaningful_iff _ _).2
    ⟨hashes_openMessage e, encodes.of_eq (by simp) (by simp) (by simp) (by simp),
      .of_not_fpvalid _ (openMessage_fpvalid e)⟩

theorem meaningful_encodeVin {e : Engine} {g : History} (h : e.Meaningful g) :
    (encodeVin e).Meaningful (g.afterCommand .venc e) := by
  obtain ⟨hashes, -, -⟩ := (meaningful_iff e g).1 h
  exact (meaningful_iff _ _).2
    ⟨hashes.of_eq (by simp) (by simp) (by simp) (by simp), encodes_encodeVin e,
      .of_not_fpvalid _ (encodeVin_fpvalid e)⟩

theorem meaningful_absorbBlock {e : Engine} {g : History} (h : e.Meaningful g) (hphase : e.phase = .absorb) :
    (absorbBlock e).Meaningful (g.afterCommand .block e) := by
  obtain ⟨hashes, encodes, composed⟩ := (meaningful_iff e g).1 h
  rw [History.afterCommand_block hphase, meaningful_iff]
  exact ⟨hashes_absorbBlock hashes hphase, encodes.of_eq (by simp) (by simp) (by simp) (by simp),
    .of_not_fpvalid _ ((absorbBlock_fpvalid e).trans (composed.fpvalid_eq_false (by simp [hphase])))⟩

theorem meaningful_absorbTail {e : Engine} {g : History} (h : e.Meaningful g) (hphase : e.phase = .absorb) {n : Nat}
    (hn : n ≤ 15) : (absorbTail n e).Meaningful (g.afterCommand (.tail n) e) := by
  obtain ⟨hashes, encodes, composed⟩ := (meaningful_iff e g).1 h
  rw [History.afterCommand_tail n hphase, meaningful_iff]
  exact ⟨hashes_absorbTail hashes hphase hn, encodes.of_eq (by simp) (by simp) (by simp) (by simp),
    .of_not_fpvalid _ ((absorbTail_fpvalid n e).trans (composed.fpvalid_eq_false (by simp [hphase])))⟩

theorem meaningful_finalizeMessage {e : Engine} {g : History} (h : e.Meaningful g)
    (hphase : e.phase = .absorb ∨ e.phase = .tailed) : (finalizeMessage e).Meaningful g := by
  obtain ⟨hashes, encodes, composed⟩ := (meaningful_iff e g).1 h
  have unfinished : e.phase ≠ .done := (Phase.ne_of_open hphase).2
  exact (meaningful_iff _ _).2
    ⟨hashes_finalizeMessage hashes hphase, encodes.of_eq (by simp) (by simp) (by simp) (by simp),
      .of_not_fpvalid _ ((finalizeMessage_fpvalid e).trans (composed.fpvalid_eq_false unfinished))⟩

theorem meaningful_composeFingerprint {e : Engine} {g : History} (h : e.Meaningful g) (hphase : e.phase = .done)
    (hvalid : e.vvalid = true) : (composeFingerprint e).Meaningful g := by
  obtain ⟨hashes, encodes, -⟩ := (meaningful_iff e g).1 h
  exact (meaningful_iff _ _).2
    ⟨hashes.of_eq (by simp) (by simp) (by simp) (by simp), encodes.of_eq (by simp) (by simp) (by simp) (by simp),
      composed_composeFingerprint hashes encodes hphase hvalid⟩

/-! ## Commands and steps -/

theorem meaningful_execEngine {i : Instr} (hwf : i.wf = true) {e : Engine} {g : History} (h : e.Meaningful g)
    (herr : e.err = false) : (execEngine i e).Meaningful (g.afterCommand i e) := by
  rcases execEngine_cases i e herr with
    ⟨rfl, heq⟩ | ⟨rfl, heq⟩ | ⟨rfl, heq⟩ | ⟨rfl, heq⟩ | ⟨rfl, hp, heq⟩ | ⟨n, rfl, hp, heq⟩ | ⟨rfl, hp, heq⟩ |
      ⟨rfl, hp, hv, heq⟩ | ⟨hi, hp, heq⟩ | ⟨rfl, -, -, heq⟩ | ⟨rfl, -, heq⟩ <;> rw [heq]
  · exact h
  · exact meaningful_engine_reset
  · exact meaningful_openMessage h
  · exact meaningful_encodeVin h
  · exact meaningful_absorbBlock h hp
  · exact meaningful_absorbTail h hp (of_decide_eq_true hwf)
  · exact meaningful_finalizeMessage h hp
  · exact meaningful_composeFingerprint h hp hv
  · rcases hi with rfl | ⟨n, rfl⟩
    · rw [History.afterCommand_block_refused hp]
      exact meaningful_cmdFault .sequence h
    · rw [History.afterCommand_tail_refused n hp]
      exact meaningful_cmdFault .sequence h
  · exact meaningful_cmdFault .sequence h
  · exact meaningful_cmdFault .notReady h

/-- A write to CMD: the command, unless it is ignored, or the fault of an illegal word (R75). -/
theorem meaningful_writeCommandEngine (w : Word) {e : Engine} {g : History} (h : e.Meaningful g) :
    (writeCommandEngine w e).Meaningful (g.after (.memWrite 0x00 8 w) e) := by
  cases hd : decode w with
  | ok i =>
    rw [writeCommandEngine_of_decode hd, History.after_command hd]
    cases herr : e.err with
    | true =>
      rw [execEngine_of_err i herr]
      by_cases hi : i = .srst
      · simpa [hi] using meaningful_engine_reset
      · simpa [hi] using h
    | false => simpa using meaningful_execEngine ((decode_eq_ok_iff_encode w i).1 hd).1 h herr
  | error r =>
    rw [History.after_illegal hd, writeCommandEngine, hd]
    dsimp only
    split
    · exact h
    · exact meaningful_cmdFault .illegalCmd h

/-- The host writes a word to CMD: it is run (R55, R64). -/
theorem deliverEngine_commandWrite (w : Word) (e : Engine) :
    deliverEngine (commandWrite w) e = writeCommandEngine w e := by
  have passes : checkAccess .write 0x00 8 = .ok .cmd := checkAccess_allowed (r := .cmd) rfl
  simp [commandWrite, deliverEngine, passes]

/-- The host writes another writable register: it is stored (R55). -/
theorem deliverEngine_wr {r : Reg} (hcmd : r ≠ .cmd) (hr : r.writable = true) (v : Word) (e : Engine) :
    deliverEngine (wr r v) e = writeReg r v e := by
  have passes : checkAccess .write r.offset 8 = .ok r := checkAccess_allowed hr
  simp [wr, deliverEngine, passes]

/-- CMD alone lies at offset 0 (R51). -/
theorem Reg.offset_ne_zero {r : Reg} (h : r ≠ .cmd) : r.offset ≠ 0x00 := by
  cases r with
  | cmd => exact absurd rfl h
  | _ => decide

theorem meaningful_deliverEngine (ev : HostEvent) {e : Engine} {g : History} (h : e.Meaningful g) :
    (deliverEngine ev e).Meaningful (g.after ev e) := by
  cases ev with
  | memRead off n => exact h
  | reset => exact meaningful_engine_reset
  | memWrite off n v =>
    cases hc : checkAccess .write off n with
    | error f =>
      have elsewhere : ¬ (off = 0x00 ∧ n = 8) := by
        rintro ⟨rfl, rfl⟩
        exact nomatch hc.symm.trans (checkAccess_allowed (kind := .write) (r := .cmd) rfl)
      rw [History.after_memWrite_elsewhere v e g elsewhere]
      simpa only [deliverEngine, hc] using h
    | ok r =>
      obtain ⟨rfl, rfl, writable⟩ := (checkAccess_ok_iff _ _ _ _).1 hc
      by_cases hr : r = .cmd
      · subst hr
        exact (deliverEngine_commandWrite v e).symm ▸ meaningful_writeCommandEngine v h
      · rw [History.after_memWrite_elsewhere v e g fun hcmd => Reg.offset_ne_zero hr hcmd.1]
        exact (deliverEngine_wr hr writable v e).symm ▸ meaningful_writeReg r v h

/-- Settles O39: a step delivers its event, and `meaningful_deliverEngine` says what each event keeps. -/
theorem everyStepKeepsTheEngineMeaningful : Obligations.EveryStepKeepsTheEngineMeaningful := by
  intro g s t ev rest h hin hstep
  obtain rfl := Host.Outcome.next.inj ((step_cons hin).symm.trans hstep)
  exact meaningful_deliverEngine ev h

/-- Settles O38: the reset engine is in IDLE with no encoding, so it speaks of no byte and no value. -/
theorem resetEngineIsMeaningful : Obligations.ResetEngineIsMeaningful := by
  refine ⟨rfl, rfl, rfl, meaningful_engine_reset, fun g h => ⟨(h.idle rfl).1, ?_⟩⟩
  exact Option.isNone_iff_eq_none.1 (Option.isSome_eq_false_iff.1 h.valid.symm)

end Sys2Proof.Machine
end

section
/-! PROOF. Steps at the host port (20_memory.md R52, R62; 70_reset_and_hazards.md R200, R211, R212): what one event is
answered, what the registers show of the engine, and the addresses at which they lie (00_scope.md R5). -/

namespace Sys2Proof.Machine

/-! ## One event, one step -/

/-- Settles O7: the step runs the word, and the word is the command's. -/
theorem stepRunsTheDecodedCommand : Obligations.StepRunsTheDecodedCommand := by
  intro s w i rest hd hin
  rw [step_commandWrite hin, writeCommandEngine_of_decode hd, exec_eq, onNext_next]
  rfl

/-- A read answers a value or ERR, never the OK of a write (R52). -/
theorem readAnswer_ne_ok (off n : Nat) (e : Engine) : readAnswer off n e ≠ .ok := by
  unfold readAnswer
  split
  · nofun
  · split <;> nofun

/-- A write answers OK or ERR, and nothing else (R52). -/
theorem deliverAnswers_memWrite (off n : Nat) (v : BitVec (8 * n)) (e : Engine) :
    deliverAnswers (.memWrite off n v) e = [.ok] ∨ deliverAnswers (.memWrite off n v) e = [.err] := by
  cases hc : checkAccess .write off n with
  | error f => exact .inr (by simp only [deliverAnswers, hc])
  | ok r => exact .inl (by simp only [deliverAnswers, hc])

/-- Settles O8: one case per kind of event, each answered by `deliverAnswers`. -/
theorem everyHostOperationIsAnsweredOnce : Obligations.EveryHostOperationIsAnsweredOnce := by
  intro s ev rest hin
  refine ⟨_, step_cons hin, rfl, ?_⟩
  cases ev with
  | memRead off n => exact ⟨_, rfl, readAnswer_ne_ok off n s.engine⟩
  | memWrite off n v =>
    exact (deliverAnswers_memWrite off n v s.engine).imp (congrArg (s.answers ++ ·)) (congrArg (s.answers ++ ·))
  | reset => exact List.append_nil s.answers

/-- Settles O9: there is nothing to deliver. -/
theorem engineNeverActsOnItsOwn : Obligations.EngineNeverActsOnItsOwn := fun _ => step_nil

/-- Settles O35: a delivered reset is `step_reset`, and SRST has the same effect on the engine. -/
theorem resetClearsEveryElement : Obligations.ResetClearsEveryElement :=
  ⟨fun _ _ => step_reset, status_engine_reset, exec_srst State.reset⟩

/-! ## STATUS -/

theorem status_phase (e : Engine) : e.status.extractLsb' 0 2 = e.phase.code := by
  rw [Engine.status, BitVec.extractLsb'_setWidth_of_le (by decide), BitVec.extractLsb'_append_eq_right]

theorem status_vvalid (e : Engine) : e.status.getLsbD 2 = e.vvalid := by
  simp only [Engine.status, BitVec.getLsbD_setWidth, BitVec.getLsbD_append]
  simp

theorem status_fpvalid (e : Engine) : e.status.getLsbD 3 = e.fpvalid := by
  simp only [Engine.status, BitVec.getLsbD_setWidth, BitVec.getLsbD_append]
  simp

theorem status_err (e : Engine) : e.status.getLsbD 4 = e.err := by
  simp only [Engine.status, BitVec.getLsbD_setWidth, BitVec.getLsbD_append]
  simp

theorem status_reserved (e : Engine) : e.status.extractLsb' 5 3 = 0 := by
  rw [Engine.status, BitVec.extractLsb'_setWidth_of_le (by decide)]
  iterate 4 rw [BitVec.extractLsb'_append_eq_of_le (by decide)]
  exact BitVec.extractLsb'_append_eq_right

theorem status_ecode (e : Engine) : e.status.extractLsb' 8 4 = e.ecode := by
  rw [Engine.status, BitVec.extractLsb'_setWidth_of_le (by decide)]
  iterate 5 rw [BitVec.extractLsb'_append_eq_of_le (by decide)]
  exact BitVec.extractLsb'_append_eq_right

theorem status_vlen (e : Engine) : e.status.extractLsb' 12 4 = e.vlen := by
  rw [Engine.status, BitVec.extractLsb'_setWidth_of_le (by decide)]
  iterate 5 rw [BitVec.extractLsb'_append_eq_of_le (by decide)]
  exact BitVec.extractLsb'_append_eq_left

/-- The fields are sixteen bits wide, so the rest of the register is zero. -/
theorem status_upper (e : Engine) : e.status.extractLsb' 16 48 = 0 := by
  rw [Engine.status, BitVec.extractLsb'_setWidth_of_le (by decide)]
  refine BitVec.eq_of_getLsbD_eq fun i hi => ?_
  rw [BitVec.getLsbD_extractLsb', BitVec.getLsbD_of_ge _ _ (Nat.le_add_right 16 i)]
  simp

/-- Settles O13: one lemma per field. -/
theorem statusShowsEachFieldAtItsPlace : Obligations.StatusShowsEachFieldAtItsPlace := by
  intro e
  refine ⟨(status_phase e).trans ?_, status_vvalid e, status_fpvalid e, status_err e, status_reserved e, status_ecode e,
    status_vlen e, status_upper e⟩
  cases e.phase <;> rfl

/-! ## Registers -/

/-- A host write to a data register shows in that register alone (R55). -/
theorem readReg_writeReg_of_ne {r q : Reg} (h : q ≠ r) (v : Word) (e : Engine) :
    readReg q (writeReg r v e) = readReg q e := by
  cases r with
  | seed =>
    cases q with
    | seed => exact absurd rfl h
    | _ => rfl
  | din0 =>
    cases q with
    | din0 => exact absurd rfl h
    | _ => rfl
  | din1 =>
    cases q with
    | din1 => exact absurd rfl h
    | _ => rfl
  | vin =>
    cases q with
    | vin => exact absurd rfl h
    | _ => rfl
  | _ => rfl

theorem readReg_writeReg_seed (v : Word) (e : Engine) :
    readReg .seed (writeReg .seed v e) = some ((v.extractLsb' 0 32).setWidth 64) := by
  rw [← BitVec.setWidth_eq_extractLsb' (by decide)]
  rfl

/-- The second of two equal writes stores what is there (R60). -/
theorem writeReg_writeReg (r : Reg) (v : Word) (e : Engine) : writeReg r v (writeReg r v e) = writeReg r v e := by
  cases r <;> rfl

/-- Settles O15: the frame, the read back of SEED and of the three other registers, and the repeated write. -/
theorem readAfterWriteAtThePort : Obligations.ReadAfterWriteAtThePort := by
  intro r q v e hr
  refine ⟨fun hq => readReg_writeReg_of_ne hq v e, ?_, fun hseed => ?_, writeReg_writeReg r v e⟩
  · rintro rfl
    exact readReg_writeReg_seed v e
  · simp only [List.mem_cons, List.not_mem_nil, or_false] at hr
    rcases hr with rfl | rfl | rfl | rfl
    · exact absurd rfl hseed
    · rfl
    · rfl
    · rfl

/-- Equal answers to the read of a readable register are equal values. -/
theorem readReg_eq_of_readAnswer_eq {r : Reg} (hr : r.readable = true) {e f : Engine}
    (h : readAnswer r.offset 8 e = readAnswer r.offset 8 f) : readReg r e = readReg r f := by
  obtain ⟨v, hv, answered⟩ := readAnswer_of_readable hr e
  obtain ⟨w, hw, answered'⟩ := readAnswer_of_readable hr f
  rw [hv, hw, Response.okData.inj (answered.symm.trans (h.trans answered'))]

theorem phase_code_injective : Function.Injective Phase.code := by
  intro p q
  cases p <;> cases q <;> decide

theorem zextSeed_injective : Function.Injective zextSeed := by
  intro x y h
  have low := congrArg (BitVec.setWidth 32) h
  simpa [zextSeed] using low

/-- Two engines are equal when each of the seventeen elements is. -/
theorem engine_ext_iff {e f : Engine} :
    e = f ↔ e.h1 = f.h1 ∧ e.h2 = f.h2 ∧ e.len = f.len ∧ e.seed = f.seed ∧ e.din0 = f.din0 ∧ e.din1 = f.din1 ∧
      e.vin = f.vin ∧ e.vout0 = f.vout0 ∧ e.vout1 = f.vout1 ∧ e.vlen = f.vlen ∧ e.fp0 = f.fp0 ∧ e.fp1 = f.fp1 ∧
      e.phase = f.phase ∧ e.vvalid = f.vvalid ∧ e.fpvalid = f.fpvalid ∧ e.err = f.err ∧ e.ecode = f.ecode := by
  cases e
  cases f
  exact iff_of_eq (Engine.mk.injEq ..)

/-- Settles O16: ten registers are elements, SEED is the zero extension of one, and STATUS holds the other six. -/
theorem readableRegistersExposeTheEngine : Obligations.ReadableRegistersExposeTheEngine := by
  intro e f h
  have register (r : Reg) (hr : r.readable = true) : readReg r e = readReg r f :=
    readReg_eq_of_readAnswer_eq hr (h r.offset (by revert hr; cases r <;> decide))
  have value {r : Reg} {x y : Word} (hr : r.readable = true) (hx : readReg r e = some x) (hy : readReg r f = some y) :
      x = y := Option.some.inj (hx.symm.trans ((register r hr).trans hy))
  have status : e.status = f.status := value (r := .status) rfl rfl rfl
  have seed : e.seed = f.seed := zextSeed_injective (value (r := .seed) rfl rfl rfl)
  have vlen : e.vlen = f.vlen := by rw [← status_vlen, ← status_vlen, status]
  have phase : e.phase = f.phase := phase_code_injective (by rw [← status_phase, ← status_phase, status])
  have vvalid : e.vvalid = f.vvalid := by rw [← status_vvalid, ← status_vvalid, status]
  have fpvalid : e.fpvalid = f.fpvalid := by rw [← status_fpvalid, ← status_fpvalid, status]
  have err : e.err = f.err := by rw [← status_err, ← status_err, status]
  have ecode : e.ecode = f.ecode := by rw [← status_ecode, ← status_ecode, status]
  exact engine_ext_iff.2 ⟨value (r := .h1) rfl rfl rfl, value (r := .h2) rfl rfl rfl, value (r := .len) rfl rfl rfl,
    seed, value (r := .din0) rfl rfl rfl, value (r := .din1) rfl rfl rfl, value (r := .vin) rfl rfl rfl,
    value (r := .vout0) rfl rfl rfl, value (r := .vout1) rfl rfl rfl, vlen, value (r := .fp0) rfl rfl rfl,
    value (r := .fp1) rfl rfl rfl, phase, vvalid, fpvalid, err, ecode⟩

/-! ## Addresses -/

/-- Settles O17: BASE is a multiple of 8, and an offset is the distance from it. -/
theorem busAddressesAreTheOffsets : Obligations.BusAddressesAreTheOffsets := by
  intro off
  constructor
  · rw [busAddress, Config.base, Nat.mul_add_mod]
  · simp [busOffset?, busAddress]

end Sys2Proof.Machine
end

section
/-! PROOF. Rules of the whole machine (10_state.md R20; 30_encoding.md R76 to R78; 60_exceptions.md R177 to R182;
70_reset_and_hazards.md R203 to R208): when a command is legal, what it writes, and what it reads. -/

namespace Sys2Proof.Machine

/-! ## A command by its legality -/

/-- What a legal command does to the engine (`execEngine_of_legal`). -/
def commandEffect (i : Instr) : Engine → Engine :=
  match i with
  | .nop => id
  | .init => openMessage
  | .block => absorbBlock
  | .tail n => absorbTail n
  | .final => finalizeMessage
  | .venc => encodeVin
  | .compose => composeFingerprint
  | .srst => softReset

/-- The fault of a command that is not legal (`execEngine_of_not_legal`). -/
def commandFault (i : Instr) : CmdFault :=
  match i with
  | .compose => .notReady
  | _ => .sequence

theorem execEngine_of_legal {i : Instr} {e : Engine} (herr : e.err = false) (h : legalInPhase i e) :
    execEngine i e = commandEffect i e := by
  cases i with
  | nop | srst => rfl
  | init => exact execEngine_init herr
  | venc => exact execEngine_venc herr
  | block => exact (execEngine_block herr).trans (if_neg (not_not_intro h))
  | tail n => exact (execEngine_tail n herr).trans (if_neg (not_not_intro h))
  | final => exact (execEngine_final herr).trans (if_neg fun hn => h.elim hn.1 hn.2)
  | compose =>
    obtain ⟨hphase, hvalid⟩ := h
    exact (execEngine_compose herr).trans (if_neg (by simp [hphase, hvalid]))

theorem execEngine_of_not_legal {i : Instr} {e : Engine} (herr : e.err = false) (h : ¬ legalInPhase i e) :
    execEngine i e = cmdFault (commandFault i) e := by
  cases i with
  | nop | srst | init | venc => exact absurd trivial h
  | block => exact (execEngine_block herr).trans (if_pos h)
  | tail n => exact (execEngine_tail n herr).trans (if_pos h)
  | final => exact (execEngine_final herr).trans (if_pos (not_or.1 h))
  | compose =>
    have unready : e.phase ≠ .done ∨ e.vvalid = false := by
      rw [← Bool.not_eq_true]
      exact not_and_or.1 h
    exact (execEngine_compose herr).trans (if_pos unready)

/-- Legality asks for PHASE and VVALID alone (R78). -/
theorem legalInPhase_congr (i : Instr) {e f : Engine} (phase : e.phase = f.phase) (vvalid : e.vvalid = f.vvalid) :
    legalInPhase i e ↔ legalInPhase i f := by
  simp only [legalInPhase, phase, vvalid]

/-- What a write to CMD can do: nothing, the effect of its command, or a fault, whose grounds are the word or the
phase (R75). -/
theorem writeCommandEngine_cases (w : Word) (e : Engine) :
    writeCommandEngine w e = e ∨
    (∃ i : Instr, i.wf = true ∧ encode i = w ∧ writeCommandEngine w e = commandEffect i e) ∨
    (∃ c : CmdFault, e.err = false ∧ writeCommandEngine w e = cmdFault c e ∧
      (IllegalWord w ∨ ∃ i : Instr, i.wf = true ∧ encode i = w ∧ ¬ legalInPhase i e)) := by
  by_cases hw : IllegalWord w
  · cases herr : e.err with
    | true =>
      obtain ⟨r, hr⟩ := exists_error_of_illegalWord hw
      exact .inl (by simp [writeCommandEngine, hr, herr])
    | false => exact .inr (.inr ⟨.illegalCmd, rfl, writeCommandEngine_of_illegalWord hw herr, .inl hw⟩)
  · obtain ⟨i, hi⟩ := exists_decode_of_not_illegalWord hw
    obtain ⟨hwf, henc⟩ := (decode_eq_ok_iff_encode w i).1 hi
    rw [writeCommandEngine_of_decode hi]
    cases herr : e.err with
    | true =>
      rw [execEngine_of_err i herr]
      by_cases hsrst : i = .srst
      · exact .inr (.inl ⟨i, hwf, henc, by rw [if_pos hsrst, hsrst]; rfl⟩)
      · exact .inl (if_neg hsrst)
    | false =>
      by_cases hlegal : legalInPhase i e
      · exact .inr (.inl ⟨i, hwf, henc, execEngine_of_legal herr hlegal⟩)
      · exact .inr (.inr ⟨_, rfl, execEngine_of_not_legal herr hlegal, .inr ⟨i, hwf, henc, hlegal⟩⟩)

/-! ## The phase table -/

theorem commandEffect_err (i : Instr) {e : Engine} (herr : e.err = false) : (commandEffect i e).err = false := by
  cases i <;> simp [commandEffect, softReset, Engine.reset, herr]

/-- Where the command is legal, the table gives the phase that its effect leaves (R77). -/
theorem nextPhase_of_legal {i : Instr} {e : Engine} (h : legalInPhase i e) :
    nextPhase i e.phase e.vvalid = .ok (commandEffect i e).phase := by
  cases i with
  | nop | init | venc | srst => simp [nextPhase, commandEffect, softReset, Engine.reset]
  | block | tail n => simp [nextPhase, commandEffect, show e.phase = .absorb from h]
  | final => rcases h with h | h <;> simp [nextPhase, commandEffect, h]
  | compose => simp [nextPhase, commandEffect, h.1, h.2]

/-- Where it is not legal, the table gives its fault (R77). -/
theorem nextPhase_of_not_legal {i : Instr} {e : Engine} (h : ¬ legalInPhase i e) :
    nextPhase i e.phase e.vvalid = .error (commandFault i) := by
  cases i with
  | nop | srst | init | venc => exact absurd trivial h
  | block | tail n | final | compose =>
    cases hphase : e.phase <;> simp_all [nextPhase, commandFault, legalInPhase]

/-- Settles O27: a legal command has its effect, whose phase the table gives, and another one the fault it gives. -/
theorem phaseFollowsTheTable : Obligations.PhaseFollowsTheTable := by
  intro i s _ herr
  refine ⟨_, exec_eq i s, ?_⟩
  by_cases hlegal : legalInPhase i s.engine
  · rw [nextPhase_of_legal hlegal, execEngine_of_legal herr hlegal]
    exact ⟨rfl, commandEffect_err i herr, hlegal⟩
  · rw [nextPhase_of_not_legal hlegal, execEngine_of_not_legal herr hlegal]
    cases i <;> exact ⟨rfl, hlegal⟩

/-! ## Out of ERR = 1 -/

/-- Settles O29: with ERR = 1 a step leaves the engine, resets it, writes a register, or runs a word, of which only
0x0F has an effect. -/
theorem onlySrstOrResetClearsErr : Obligations.OnlySrstOrResetClearsErr := by
  intro s t herr hstep
  rcases step_engine_cases hstep with heq | ⟨hin, heq⟩ | ⟨r, v, -, -, -, heq⟩ | ⟨w, hin, heq⟩
  · exact .inl ⟨by rw [heq, herr], _, _, _, _, heq⟩
  · exact .inr ⟨heq, .inl hin⟩
  · rw [writeReg_frame] at heq
    exact .inl ⟨by rw [heq, herr], _, _, _, _, heq⟩
  · rw [writeCommandEngine_of_err w herr] at heq
    by_cases hw : w = 0x0F
    · subst hw
      exact .inr ⟨heq, .inr hin⟩
    · rw [if_neg hw] at heq
      exact .inl ⟨by rw [heq, herr], _, _, _, _, heq⟩

/-! ## What each command writes -/

/-- The sixteen TAIL commands of R72. -/
theorem tail_mem_tails {n : Nat} (hwf : (Instr.tail n).wf = true) : Instr.tail n ∈ (List.range 16).map Instr.tail :=
  List.mem_map.2 ⟨n, List.mem_range.2 (Nat.lt_succ_of_le (of_decide_eq_true hwf)), rfl⟩

/-! One lemma per row of the column "Written by" of R20: a command outside the row's list leaves its elements. -/

theorem commandEffect_accumulators {i : Instr} (hwf : i.wf = true) (e : Engine)
    (hi : i ∉ .init :: .block :: .final :: .srst :: (List.range 16).map Instr.tail) :
    (commandEffect i e).h1 = e.h1 ∧ (commandEffect i e).h2 = e.h2 := by
  cases i with
  | tail n => simp [tail_mem_tails hwf] at hi
  | _ => simp_all [commandEffect]

theorem commandEffect_len {i : Instr} (hwf : i.wf = true) (e : Engine)
    (hi : i ∉ .init :: .block :: .srst :: (List.range 16).map Instr.tail) : (commandEffect i e).len = e.len := by
  cases i with
  | tail n => simp [tail_mem_tails hwf] at hi
  | _ => simp_all [commandEffect]

theorem commandEffect_phase {i : Instr} (hwf : i.wf = true) (e : Engine)
    (hi : i ∉ .init :: .final :: .srst :: (List.range 16).map Instr.tail) : (commandEffect i e).phase = e.phase := by
  cases i with
  | tail n => simp [tail_mem_tails hwf] at hi
  | _ => simp_all [commandEffect]

theorem commandEffect_hostRegisters {i : Instr} (e : Engine) (hi : i ∉ [Instr.srst]) :
    (commandEffect i e).seed = e.seed ∧ (commandEffect i e).din0 = e.din0 ∧ (commandEffect i e).din1 = e.din1 ∧
      (commandEffect i e).vin = e.vin := by
  cases i <;> simp_all [commandEffect]

theorem commandEffect_encoding {i : Instr} (e : Engine) (hi : i ∉ [Instr.venc, .srst]) :
    (commandEffect i e).vout0 = e.vout0 ∧ (commandEffect i e).vout1 = e.vout1 ∧ (commandEffect i e).vlen = e.vlen ∧
      (commandEffect i e).vvalid = e.vvalid := by
  cases i <;> simp_all [commandEffect]

theorem commandEffect_fingerprint {i : Instr} (e : Engine) (hi : i ∉ [Instr.compose, .srst]) :
    (commandEffect i e).fp0 = e.fp0 ∧ (commandEffect i e).fp1 = e.fp1 := by
  cases i <;> simp_all [commandEffect]

theorem commandEffect_fpvalid {i : Instr} (e : Engine) (hi : i ∉ [Instr.compose, .init, .venc, .srst]) :
    (commandEffect i e).fpvalid = e.fpvalid := by
  cases i <;> simp_all [commandEffect]

theorem commandEffect_fault {i : Instr} (e : Engine) (hi : i ∉ [Instr.srst]) :
    (commandEffect i e).err = e.err ∧ (commandEffect i e).ecode = e.ecode := by
  cases i <;> simp_all [commandEffect]

/-- A command that changed what no command outside `l` changes is one of `l`. -/
theorem ran_of_changed {evs : List HostEvent} {i : Instr} (hin : evs.head? = some (issue i)) {l : List Instr}
    {unchanged : Prop} (frame : i ∉ l → unchanged) (changed : ¬ unchanged) :
    ∃ j ∈ l, evs.head? = some (issue j) :=
  ⟨i, by_contra fun hi => changed (frame hi), hin⟩

/-- Settles O30: the event leaves the engine, resets it, or writes one register, or a word's command changes what its
rows allow, or its fault ERR and ECODE. -/
theorem eachElementIsWrittenOnlyAsTabulated : Obligations.EachElementIsWrittenOnlyAsTabulated := by
  intro s t hstep e f ran tails wrote reset
  rcases step_engine_cases hstep with heq | ⟨hin, heq⟩ | ⟨r, v, hcmd, hr, hin, heq⟩ | ⟨w, hin, heq⟩
  · simp [f, e, heq]
  · refine ⟨?_, ?_, ?_, ?_, ?_, ?_, ?_, ?_, ?_, ?_, ?_, ?_⟩ <;> exact fun _ => .inl hin
  · have hwrote : wrote r := ⟨v, hin⟩
    have hf : f = writeReg r v e := heq
    cases r <;> simp_all [writeReg, Reg.writable]
  · rcases writeCommandEngine_cases w e with hsame | ⟨i, hwf, rfl, heffect⟩ | ⟨c, herr, hfault, grounds⟩
    · simp [f, e, heq, hsame]
    · have hf : f = commandEffect i e := heq.trans heffect
      have row {l : List Instr} {unchanged : Prop} (frame : i ∉ l → unchanged) (changed : ¬ unchanged) : ran l :=
        ran_of_changed hin frame changed
      have host := commandEffect_hostRegisters (i := i) e
      rw [hf]
      refine ⟨fun h => .inr (row (fun hi => (commandEffect_accumulators hwf e hi).1) h),
        fun h => .inr (row (fun hi => (commandEffect_accumulators hwf e hi).2) h),
        fun h => .inr (row (commandEffect_len hwf e) h),
        fun h => .inr (.inl (row (fun hi => have ⟨seed, _, _, _⟩ := host hi; seed) h)),
        fun h => .inr (.inl (row (fun hi => have ⟨_, din0, _, _⟩ := host hi; din0) h)),
        fun h => .inr (.inl (row (fun hi => have ⟨_, _, din1, _⟩ := host hi; din1) h)),
        fun h => .inr (.inl (row (fun hi => have ⟨_, _, _, vin⟩ := host hi; vin) h)),
        fun h => .inr (row (commandEffect_encoding e) ?_), fun h => .inr (row (commandEffect_fingerprint e) ?_),
        fun h => .inr (row (commandEffect_phase hwf e) h), fun h => .inr (row (commandEffect_fpvalid e) h),
        fun h => .inr (.inl (row (commandEffect_fault e) ?_))⟩ <;>
        simpa only [not_and_or] using h
    · have hf : f = cmdFault c e := heq.trans hfault
      have ground : ∃ w', s.incoming.head? = some (wr .cmd w') ∧ e.err = false ∧ f.err = true ∧
          (IllegalWord w' ∨ ∃ i : Instr, i.wf = true ∧ encode i = w' ∧ ¬ legalInPhase i e) :=
        ⟨w, hin, herr, by rw [hf, cmdFault_err], grounds⟩
      refine ⟨?_, ?_, ?_, ?_, ?_, ?_, ?_, ?_, ?_, ?_, ?_, fun _ => .inr (.inr ground)⟩ <;> simp [hf]

/-! ## What each command reads -/

/-- Whether and how a command faults is decided by PHASE, VVALID, ERR and ECODE alone. -/
theorem execEngine_control (i : Instr) {e f : Engine} (phase : e.phase = f.phase) (vvalid : e.vvalid = f.vvalid)
    (err : e.err = f.err) (ecode : e.ecode = f.ecode) :
    (execEngine i e).err = (execEngine i f).err ∧ (execEngine i e).ecode = (execEngine i f).ecode ∧
      (execEngine i e).phase = (execEngine i f).phase := by
  cases herr : f.err with
  | true =>
    rw [execEngine_of_err i (err.trans herr), execEngine_of_err i herr]
    split
    · exact ⟨rfl, rfl, rfl⟩
    · exact ⟨err, ecode, phase⟩
  | false =>
    have same := legalInPhase_congr i phase vvalid
    by_cases hlegal : legalInPhase i f
    · rw [execEngine_of_legal (err.trans herr) (same.2 hlegal), execEngine_of_legal herr hlegal]
      cases i <;> simp [commandEffect, softReset, phase, err, ecode]
    · rw [execEngine_of_not_legal (err.trans herr) (mt same.1 hlegal), execEngine_of_not_legal herr hlegal]
      exact ⟨rfl, rfl, phase⟩

/-- Settles O31: an illegal word asks for ERR alone, and a command is `execEngine_control`. -/
theorem dataNeverFaults : Obligations.DataNeverFaults := by
  intro w s s' phase vvalid err ecode
  refine ⟨_, _, writeCommand_eq w s, writeCommand_eq w s', ?_⟩
  simp only [State.withEngine_engine, writeCommandEngine]
  cases decode w with
  | ok i => exact execEngine_control i phase vvalid err ecode
  | error r =>
    dsimp only
    rw [err]
    split
    · exact ⟨err, ecode, phase⟩
    · exact ⟨rfl, rfl, phase⟩

/-- Storing elements that legality does not ask for commutes with a command whose effect it commutes with. -/
theorem exec_withEngine_of_commutes {i : Instr} (hi : i ≠ .srst) {store : Engine → Engine} {s : State}
    (err : (store s.engine).err = s.engine.err) (phase : (store s.engine).phase = s.engine.phase)
    (vvalid : (store s.engine).vvalid = s.engine.vvalid)
    (fault : ∀ c, cmdFault c (store s.engine) = store (cmdFault c s.engine))
    (effect : commandEffect i (store s.engine) = store (commandEffect i s.engine)) :
    exec i (s.withEngine (store s.engine)) = onNext (fun t => t.withEngine (store t.engine)) (exec i s) := by
  have commutes : execEngine i (store s.engine) = store (execEngine i s.engine) := by
    cases herr : s.engine.err with
    | true => rw [execEngine_of_err i (err.trans herr), execEngine_of_err i herr, if_neg hi, if_neg hi]
    | false =>
      have same := legalInPhase_congr i phase vvalid
      by_cases hlegal : legalInPhase i s.engine
      · rw [execEngine_of_legal (err.trans herr) (same.2 hlegal), execEngine_of_legal herr hlegal, effect]
      · rw [execEngine_of_not_legal (err.trans herr) (mt same.1 hlegal), execEngine_of_not_legal herr hlegal, fault]
  rw [exec_eq, exec_eq, onNext_next, State.withEngine_engine, commutes, State.withEngine_withEngine,
    State.withEngine_withEngine, State.withEngine_engine]

theorem commandEffect_with_seed {i : Instr} (hsrst : i ≠ .srst) (hinit : i ≠ .init) (x : BitVec 32) (e : Engine) :
    commandEffect i { e with seed := x } = { commandEffect i e with seed := x } := by
  cases i with
  | srst => exact absurd rfl hsrst
  | init => exact absurd rfl hinit
  | _ => rfl

theorem commandEffect_with_vin {i : Instr} (hsrst : i ≠ .srst) (hvenc : i ≠ .venc) (y : Word) (e : Engine) :
    commandEffect i { e with vin := y } = { commandEffect i e with vin := y } := by
  cases i with
  | srst => exact absurd rfl hsrst
  | venc => exact absurd rfl hvenc
  | _ => rfl

theorem commandEffect_with_din {i : Instr} (hsrst : i ≠ .srst) (hblock : i ≠ .block) (htail : ∀ n, i ≠ .tail n)
    (y : Word) (e : Engine) :
    commandEffect i { e with din0 := y } = { commandEffect i e with din0 := y } ∧
      commandEffect i { e with din1 := y } = { commandEffect i e with din1 := y } := by
  cases i with
  | srst => exact absurd rfl hsrst
  | block => exact absurd rfl hblock
  | tail n => exact absurd rfl (htail n)
  | _ => exact ⟨rfl, rfl⟩

/-- Settles O32: another value of a register is stored before or after every command that does not sample it. -/
theorem inputRegistersAreSampledOnlyByTheirCommand : Obligations.InputRegistersAreSampledOnlyByTheirCommand := by
  intro i s x y hsrst
  refine ⟨fun hinit => ?_, fun hvenc => ?_, fun hblock htail => ?_⟩
  · exact exec_withEngine_of_commutes hsrst (store := fun e => { e with seed := x }) rfl rfl rfl (fun _ => rfl)
      (commandEffect_with_seed hsrst hinit x s.engine)
  · exact exec_withEngine_of_commutes hsrst (store := fun e => { e with vin := y }) rfl rfl rfl (fun _ => rfl)
      (commandEffect_with_vin hsrst hvenc y s.engine)
  · obtain ⟨din0, din1⟩ := commandEffect_with_din hsrst hblock htail y s.engine
    exact ⟨exec_withEngine_of_commutes hsrst (store := fun e => { e with din0 := y }) rfl rfl rfl (fun _ => rfl) din0,
      exec_withEngine_of_commutes hsrst (store := fun e => { e with din1 := y }) rfl rfl rfl (fun _ => rfl) din1⟩

/-- VENC writes no register that a hash command reads, and reads none that it writes. -/
theorem encodeVin_commandEffect {i : Instr} (hi : i ∈ [Instr.nop, .init, .block, .final] ∨ ∃ n, i = .tail n)
    (e : Engine) : encodeVin (commandEffect i e) = commandEffect i (encodeVin e) := by
  cases i with
  | srst | venc | compose => simp at hi
  | _ => simp [commandEffect, engine_ext_iff]

/-- A hash command asks for PHASE alone, which VENC leaves (R78). -/
theorem legalInPhase_encodeVin {i : Instr} (hi : i ∈ [Instr.nop, .init, .block, .final] ∨ ∃ n, i = .tail n)
    {e : Engine} (h : legalInPhase i e) : legalInPhase i (encodeVin e) := by
  cases i with
  | srst | venc | compose => simp at hi
  | _ => exact h

/-- Settles O33: both orders run the two effects, which commute. -/
theorem vencCommutesWithTheHashCommands : Obligations.VencCommutesWithTheHashCommands := by
  intro i s hi herr hlegal
  have vencFirst : exec i (s.withEngine (encodeVin s.engine)) =
      .next (s.withEngine (commandEffect i (encodeVin s.engine))) := by
    rw [exec_eq, State.withEngine_engine, State.withEngine_withEngine,
      execEngine_of_legal ((encodeVin_err _).trans herr) (legalInPhase_encodeVin hi hlegal)]
  have vencLast : exec .venc (s.withEngine (execEngine i s.engine)) =
      .next (s.withEngine (commandEffect i (encodeVin s.engine))) := by
    rw [execEngine_of_legal herr hlegal, exec_venc (s.withEngine (commandEffect i s.engine)) (commandEffect_err i herr),
      State.withEngine_engine, State.withEngine_withEngine, encodeVin_commandEffect hi]
  exact ⟨_, _, _, exec_venc s herr, vencFirst, exec_eq i s, vencLast⟩

end Sys2Proof.Machine
end

section
/-! PROOF. What an encoding says of its value (42_varint.md R131, R133): its length, the value itself, and where it
ends. -/

namespace Sys2Proof.Machine

/-! ## Length -/

/-- One more byte for each group above the first (R131). -/
theorem varint_length_eq_succ_iff (v : Word) (k : Nat) :
    (varint v).length = k + 1 ↔ (k = 0 ∨ 128 ^ k ≤ v.toNat) ∧ v.toNat < 128 ^ (k + 1) := by
  induction v using varint_rounds generalizing k with
  | last v hv =>
    rw [varint_of_lt hv, List.length_singleton]
    cases k with
    | zero => simpa using hv
    | succ k =>
      have wide : 128 ^ 1 ≤ 128 ^ (k + 1) := Nat.pow_le_pow_right (by decide) (by omega)
      omega
  | more v hv ih =>
    have nonempty := varint_length_pos (v >>> 7)
    rw [varint_of_ge hv, List.length_cons]
    cases k with
    | zero => omega
    | succ k =>
      have lower : (k = 0 ∨ 128 ^ k ≤ v.toNat / 128) ↔ 128 ^ (k + 1) ≤ v.toNat := by
        rw [Nat.le_div_iff_mul_le (by decide), ← pow_succ]
        exact or_iff_right_of_imp fun hk => by simpa [hk] using hv
      have upper : v.toNat / 128 < 128 ^ (k + 1) ↔ v.toNat < 128 ^ (k + 1 + 1) := by
        rw [Nat.div_lt_iff_lt_mul (by decide), ← pow_succ]
      rw [Nat.add_right_cancel_iff, ih k, shift_seven_toNat, lower, upper]
      simp

/-- Settles O50: the bounds of the loop, and `varint_length_eq_succ_iff` with 128 as 2^7. -/
theorem varintLengthByRange : Obligations.VarintLengthByRange := by
  refine fun v => ⟨varint_length_pos v, varint_length_le v, fun k hk _ => ?_⟩
  obtain ⟨k, rfl⟩ := Nat.exists_eq_add_of_le' hk
  rw [varint_length_eq_succ_iff, Nat.add_sub_cancel, pow_mul, pow_mul]
  simp

/-! ## Decoding -/

/-- The sum of the groups is the value (R133). -/
theorem varint_decodes (v : Word) :
    v.toNat = ((List.range (varint v).length).map fun i => ((varint v).getD i 0).toNat % 128 * 2 ^ (7 * i)).sum := by
  induction v using varint_rounds with
  | last v hv =>
    have byte : v.toNat % 256 % 128 = v.toNat := by omega
    simp [varint_of_lt hv, byte]
  | more v hv ih =>
    have byte : (BitVec.ofNat 8 (v.toNat % 128 + 128)).toNat % 128 = v.toNat % 128 := by
      rw [BitVec.toNat_ofNat]
      omega
    rw [varint_of_ge hv, List.length_cons,
      sum_digits_succ (fun i => ((BitVec.ofNat 8 (v.toNat % 128 + 128) :: varint (v >>> 7)).getD i 0).toNat % 128)]
    simp only [List.getD_cons_zero, List.getD_cons_succ, byte]
    rw [← ih, shift_seven_toNat]
    omega

theorem varint_injective : Function.Injective varint := by
  intro v w h
  refine BitVec.eq_of_toNat_eq ?_
  rw [varint_decodes v, varint_decodes w, h]

/-- The last byte of an encoding has bit 7 clear, so no encoding goes on after another one (R133). -/
theorem eq_of_varint_prefix {v w : Word} (h : varint v <+: varint w) : v = w := by
  have hv := varint_length_pos v
  have hle := h.length_le
  have last : (varint v).getD ((varint v).length - 1) 0 = (varint w).getD ((varint v).length - 1) 0 := by
    obtain ⟨rest, hrest⟩ := h
    rw [← hrest, List.getD_append _ _ _ _ (by omega)]
  have ended : ¬ (varint v).length - 1 + 1 < (varint w).length := by
    rw [← varint_bit_seven_iff w (by omega), ← last, varint_bit_seven_iff v (by omega)]
    omega
  exact varint_injective (h.eq_of_length (by omega))

/-- Settles O51: the value of an encoding, and the byte at which it ends. -/
theorem varintDecodesAndIsPrefixFree : Obligations.VarintDecodesAndIsPrefixFree :=
  ⟨varint_decodes, fun _ _ => eq_of_varint_prefix⟩

end Sys2Proof.Machine
end

section
/-! PROOF. The sample (41_sampling.md R120 to R125) and the fingerprint as a function of the input (43_compose.md R143,
R144). -/

namespace Sys2Proof.Machine

/-! ## The sample -/

theorem sample_of_lt {b : List Byte} (h : b.length < 131072) : sample b = b := if_pos h

/-- From the threshold on, three ranges of 16384 bytes, the middle one around half the length (R121). -/
theorem sample_of_ge {b : List Byte} (h : 131072 ≤ b.length) :
    sample b =
      slice b 0 16384 ++ slice b (b.length / 2 - 8192) (b.length / 2 - 8192 + 16384) ++
        slice b (b.length - 16384) b.length := if_neg (Nat.not_lt.2 h)

/-- The lengths of the three ranges of an input from the threshold on. -/
theorem sampleRange_lengths {b : List Byte} (h : 131072 ≤ b.length) :
    (slice b 0 16384).length = 16384 ∧
      (slice b (b.length / 2 - 8192) (b.length / 2 - 8192 + 16384)).length = 16384 ∧
      (slice b (b.length - 16384) b.length).length = 16384 := by
  simp only [slice_length]
  omega

theorem sample_length {b : List Byte} (h : 131072 ≤ b.length) : (sample b).length = 49152 := by
  obtain ⟨first, middle, last⟩ := sampleRange_lengths h
  rw [sample_of_ge h, List.length_append, List.length_append, first, middle, last]

/-- Byte `i` of each range, by its place in the sample. -/
theorem sample_getElem? {b : List Byte} (h : 131072 ≤ b.length) {i : Nat} (hi : i < 16384) :
    (sample b)[i]? = b[i]? ∧ (sample b)[16384 + i]? = b[b.length / 2 - 8192 + i]? ∧
      (sample b)[32768 + i]? = b[b.length - 16384 + i]? := by
  obtain ⟨first, middle, -⟩ := sampleRange_lengths h
  rw [sample_of_ge h]
  refine ⟨?_, ?_, ?_⟩
  · rw [List.getElem?_append_left (by rw [List.length_append]; omega), List.getElem?_append_left (by omega),
      slice_getElem?, if_pos (by omega), Nat.zero_add]
  · rw [List.getElem?_append_left (by rw [List.length_append]; omega), List.getElem?_append_right (by omega), first,
      slice_getElem?, if_pos (by omega), Nat.add_sub_cancel_left]
  · rw [List.getElem?_append_right (by rw [List.length_append]; omega), List.length_append, first, middle,
      slice_getElem?, if_pos (by omega), show 32768 + i - (16384 + 16384) = i by omega]

/-- Settles O59: below the threshold nothing is left out; from it on the three ranges have room beside each other. -/
theorem sampleIsTheInputOrThreeRanges : Obligations.SampleIsTheInputOrThreeRanges :=
  fun _ => ⟨sample_of_lt, fun h => ⟨by omega, by omega, sample_length h, fun _ => sample_getElem? h⟩⟩

/-- Lists that agree on a range have the same slice there. -/
theorem slice_congr {b b' : List Byte} {i j : Nat} (h : ∀ k, i ≤ k → k < j → b[k]? = b'[k]?) :
    slice b i j = slice b' i j := by
  refine List.ext_getElem? fun k => ?_
  rw [slice_getElem?, slice_getElem?]
  split
  · exact h (i + k) (by omega) (by omega)
  · rfl

theorem sample_congr {b b' : List Byte} (hlen : b.length = b'.length) (h : 131072 ≤ b.length)
    (agree : ∀ i, i < b.length →
      (i < 16384 ∨ (b.length / 2 - 8192 ≤ i ∧ i < b.length / 2 - 8192 + 16384) ∨ b.length - 16384 ≤ i) →
      b[i]? = b'[i]?) : sample b = sample b' := by
  rw [sample_of_ge h, sample_of_ge (hlen ▸ h), ← hlen,
    slice_congr fun k _ hk => agree k (by omega) (.inl hk),
    slice_congr fun k hk hk' => agree k (by omega) (.inr (.inl ⟨hk, hk'⟩)),
    slice_congr fun k hk hk' => agree k hk' (.inr (.inr hk))]

/-! ## The fingerprint -/

theorem murmur3_length (msg : List Byte) (seed : BitVec 32) : (murmur3 msg seed).length = 16 := bytesOfPair_length _ _

/-- The encoding of the length, and then the digest's bytes from there on (R143). -/
theorem fingerprintOf_eq (b : List Byte) :
    fingerprintOf b = some (varint (BitVec.ofNat 64 b.length) ++
      (murmur3 (sample b) 0).drop (varint (BitVec.ofNat 64 b.length)).length) :=
  compose_of_length_le _ ((varint_length_le _).trans (by decide))

/-- Settles O55: the two parts of `fingerprintOf_eq`; the empty input's encoding is one zero byte. -/
theorem fingerprintIsPrefixAndDigest : Obligations.FingerprintIsPrefixAndDigest := by
  refine ⟨fun b => ⟨_, fingerprintOf_eq b, ?_, List.take_left, List.drop_left⟩, ?_⟩
  · have short := varint_length_le (BitVec.ofNat 64 b.length)
    rw [append_drop_length (by rw [murmur3_length]; omega), murmur3_length]
  · rw [fingerprintOf_eq, sample_of_lt (by decide), murmur3_nil]
    decide

/-- Settles O56: equal fingerprints begin with both encodings, so one begins with the other, and the lengths are
equal. -/
theorem fingerprintsOfDifferentLengthsDiffer : Obligations.FingerprintsOfDifferentLengthsDiffer := by
  intro b b' hb hb' hne heq
  rw [fingerprintOf_eq, fingerprintOf_eq] at heq
  have whole := Option.some.inj heq
  have same : BitVec.ofNat 64 b.length = BitVec.ofNat 64 b'.length := by
    rcases List.prefix_or_prefix_of_prefix (List.prefix_append _ _) (whole ▸ List.prefix_append _ _) with h | h
    · exact (eq_of_varint_prefix h).symm
    · exact eq_of_varint_prefix h
  have lengths := congrArg BitVec.toNat same
  rw [BitVec.toNat_ofNat, BitVec.toNat_ofNat, Nat.mod_eq_of_lt hb, Nat.mod_eq_of_lt hb'] at lengths
  exact hne lengths

/-- Sixteen bytes agree from an index on exactly when each of them does. -/
theorem drop_eq_drop_iff {d d' : List Byte} (hd : d.length = 16) (hd' : d'.length = 16) (n : Nat) :
    d.drop n = d'.drop n ↔ ∀ i, n ≤ i → i < 16 → d[i]? = d'[i]? := by
  constructor
  · intro h i hn _
    have byte := congrArg (·[i - n]?) h
    simpa only [List.getElem?_drop, Nat.add_sub_cancel' hn] using byte
  · intro h
    refine List.ext_getElem? fun k => ?_
    rw [List.getElem?_drop, List.getElem?_drop]
    by_cases hk : n + k < 16
    · exact h (n + k) (by omega) hk
    · rw [List.getElem?_eq_none (by omega), List.getElem?_eq_none (by omega)]

/-- Settles O57: with the same encoding before them, what is left of the two digests decides. -/
theorem equalLengthFingerprintsAgreeOnTheKeptBytes : Obligations.EqualLengthFingerprintsAgreeOnTheKeptBytes := by
  intro b b' hlen
  rw [fingerprintOf_eq, fingerprintOf_eq, ← hlen, Option.some.injEq, List.append_cancel_left_eq]
  exact drop_eq_drop_iff (murmur3_length _ _) (murmur3_length _ _) _

/-- Settles O58: inputs that agree on the three ranges have the same sample. -/
theorem unsampledBytesDoNotMatter : Obligations.UnsampledBytesDoNotMatter := by
  intro b b' hlen h agree
  rw [fingerprintOf, fingerprintOf, sample_congr hlen h agree, hlen]

end Sys2Proof.Machine
end

section
/-! PROOF. The host programs (30_encoding.md R79, R80): HASH computes the reference digest (40_murmur3_engine.md R104),
and the fingerprint's program the reference fingerprint (43_compose.md R143). -/

namespace Sys2Proof.Machine

/-! ## A run as its effect on the engine -/

/-- The engine after the host events `evs` (`runAll_eq`). -/
def deliverAll (evs : List HostEvent) (e : Engine) : Engine := evs.foldl (fun e ev => deliverEngine ev e) e

@[simp] theorem deliverAll_nil (e : Engine) : deliverAll [] e = e := rfl

@[simp] theorem deliverAll_cons (ev : HostEvent) (evs : List HostEvent) (e : Engine) :
    deliverAll (ev :: evs) e = deliverAll evs (deliverEngine ev e) := rfl

@[simp] theorem deliverAll_append (evs evs' : List HostEvent) (e : Engine) :
    deliverAll (evs ++ evs') e = deliverAll evs' (deliverAll evs e) := List.foldl_append

theorem run_succ_of_step {s t : State} (h : step s = .next t) (k : Nat) :
    Host.Core.run Sys2Proof.core (k + 1) s = Host.Core.run Sys2Proof.core k t := by
  have hcore : Sys2Proof.core.step s = .next t := h
  simp only [Host.Core.run, hcore]

theorem run_incoming {s : State} {evs : List HostEvent} (h : s.incoming = evs) :
    ∃ t : State, Host.Core.run Sys2Proof.core evs.length s = .next t ∧ t.engine = deliverAll evs s.engine := by
  induction evs generalizing s with
  | nil => exact ⟨s, rfl, rfl⟩
  | cons ev rest ih =>
    rw [List.length_cons, run_succ_of_step (step_cons h)]
    exact ih rfl

/-- A run of host events always ends in a next state, with the effect of all of them on the engine. -/
theorem runAll_eq (evs : List HostEvent) (s : State) :
    ∃ t : State, runAll evs s = .next t ∧ t.engine = deliverAll evs s.engine :=
  run_incoming (s := s.withIncoming evs) rfl

/-- A command by its mnemonic is run. -/
theorem deliverEngine_issue {i : Instr} (hwf : i.wf = true) (e : Engine) :
    deliverEngine (issue i) e = execEngine i e := by
  rw [issue, deliverEngine_commandWrite, writeCommandEngine_of_decode (decode_encode_of_wf hwf)]

/-- Two data registers and the command that reads them (R80). -/
theorem deliverAll_data {i : Instr} (hwf : i.wf = true) (x y : Word) (e : Engine) :
    deliverAll [wr .din0 x, wr .din1 y, issue i] e = execEngine i { e with din0 := x, din1 := y } := by
  simp only [deliverAll_cons, deliverAll_nil, deliverEngine_issue hwf,
    deliverEngine_wr (r := .din0) nofun rfl, deliverEngine_wr (r := .din1) nofun rfl]
  rfl

/-! ## The bytes that a pair of registers is given -/

/-- At most sixteen bytes, written as two words, are read back as the first ones of the pair. -/
theorem take_bytesOfPair_le64 {b : List Byte} (h : b.length ≤ 16) :
    (bytesOfPair (le64 (b.take 8)) (le64 (b.drop 8))).take b.length = b := by
  refine List.ext_getElem? fun i => ?_
  rw [List.getElem?_take]
  by_cases hi : i < b.length
  · rw [if_pos hi, bytesOfPair_getElem? _ _ i (by omega), List.getElem?_eq_getElem hi]
    by_cases h8 : i < 8
    · rw [if_pos h8, byteOf_le64 _ i h8]
      simp [h8, hi]
    · rw [if_neg h8, byteOf_le64 _ _ (by omega)]
      simp [show 8 + (i - 8) = i by omega, hi]
  · rw [if_neg hi, List.getElem?_eq_none (by omega)]

/-! ## A message being fed -/

/-- A message is open, more blocks may follow, and nothing has gone wrong. -/
structure Engine.Feeding (e : Engine) (msg : List Byte) (seed : BitVec 32) : Prop where
  err : e.err = false
  phase : e.phase = .absorb
  hashes : e.Hashes msg seed

/-- The whole message has been given, and nothing has gone wrong. -/
structure Engine.Fed (e : Engine) (msg : List Byte) (seed : BitVec 32) : Prop where
  err : e.err = false
  phase : e.phase = .absorb ∨ e.phase = .tailed
  hashes : e.Hashes msg seed

/-- The message has been finalized, and nothing has gone wrong. -/
structure Engine.Finished (e : Engine) (msg : List Byte) (seed : BitVec 32) : Prop where
  err : e.err = false
  phase : e.phase = .done
  hashes : e.Hashes msg seed

theorem Engine.Feeding.fed {e : Engine} {msg : List Byte} {seed : BitVec 32} (h : e.Feeding msg seed) :
    e.Fed msg seed := ⟨h.err, .inl h.phase, h.hashes⟩

theorem feeding_open (seed : BitVec 32) {e : Engine} (herr : e.err = false) :
    (deliverAll [wr .seed (zextSeed seed), issue .init] e).Feeding [] seed := by
  have sampled : (zextSeed seed).setWidth 32 = seed := by simp [zextSeed]
  have stored : deliverAll [wr .seed (zextSeed seed), issue .init] e = openMessage { e with seed := seed } := by
    rw [deliverAll_cons, deliverEngine_wr (r := .seed) nofun rfl, deliverAll_cons, deliverAll_nil,
      deliverEngine_issue rfl, writeReg, sampled]
    exact execEngine_init herr
  rw [stored]
  exact ⟨(openMessage_err _).trans herr, openMessage_phase _, hashes_openMessage _⟩

theorem feeding_absorb16 {e : Engine} {msg b : List Byte} {seed : BitVec 32} (h : e.Feeding msg seed)
    (hb : b.length = 16) : (deliverAll (absorb16 b) e).Feeding (msg ++ b) seed := by
  rw [absorb16, slice_zero_eight, slice_eight_sixteen hb, deliverAll_data rfl]
  generalize hloaded : ({ e with din0 := le64 (b.take 8), din1 := le64 (b.drop 8) } : Engine) = loaded
  have bytes : bytesOfPair loaded.din0 loaded.din1 = b := hloaded ▸ bytesOfPair_le64 hb
  have loadedFeeding : loaded.Feeding msg seed := hloaded ▸ ⟨h.err, h.phase, h.hashes.of_eq rfl rfl rfl rfl⟩
  rw [execEngine_of_legal (i := .block) loadedFeeding.err loadedFeeding.phase, commandEffect]
  have absorbed := hashes_absorbBlock loadedFeeding.hashes loadedFeeding.phase
  rw [bytes] at absorbed
  exact ⟨(absorbBlock_err _).trans loadedFeeding.err, (absorbBlock_phase _).trans loadedFeeding.phase, absorbed⟩

theorem fed_absorbTailBytes {e : Engine} {msg b : List Byte} {seed : BitVec 32} (h : e.Feeding msg seed)
    (hb : b.length ≤ 15) : (deliverAll (absorbTailBytes b) e).Fed (msg ++ b) seed := by
  have hwf : (Instr.tail b.length).wf = true := decide_eq_true hb
  rw [absorbTailBytes, slice_zero_min, slice_eight_length, deliverAll_data hwf]
  generalize hloaded : ({ e with din0 := le64 (b.take 8), din1 := le64 (b.drop 8) } : Engine) = loaded
  have bytes : (bytesOfPair loaded.din0 loaded.din1).take b.length = b :=
    hloaded ▸ take_bytesOfPair_le64 (by omega)
  have loadedFeeding : loaded.Feeding msg seed := hloaded ▸ ⟨h.err, h.phase, h.hashes.of_eq rfl rfl rfl rfl⟩
  rw [execEngine_of_legal (i := .tail b.length) loadedFeeding.err loadedFeeding.phase, commandEffect]
  have absorbed := hashes_absorbTail loadedFeeding.hashes loadedFeeding.phase hb
  rw [bytes] at absorbed
  exact ⟨(absorbTail_err _ _).trans loadedFeeding.err, .inr (absorbTail_phase _ _), absorbed⟩

/-- The first `k` blocks, by induction on `k`. -/
theorem feeding_blocks {e : Engine} {seed : BitVec 32} (h : e.Feeding [] seed) (msg : List Byte) (k : Nat)
    (hk : 16 * k ≤ msg.length) :
    (deliverAll ((List.range k).flatMap fun j => absorb16 (slice msg (16 * j) (16 * j + 16))) e).Feeding
      (msg.take (16 * k)) seed := by
  induction k with
  | zero => exact h
  | succ k ih =>
    have block : slice msg (16 * k) (16 * k + 16) = (msg.drop (16 * k)).take 16 := by
      rw [slice, Nat.add_sub_cancel_left]
    have more := feeding_absorb16 (ih (by omega)) (b := slice msg (16 * k) (16 * k + 16))
      (by rw [slice_length]; omega)
    rw [block, ← List.take_add, ← Nat.mul_succ] at more
    simpa [List.range_succ, block] using more

theorem feeding_absorbBlocks {e : Engine} {seed : BitVec 32} (h : e.Feeding [] seed) (msg : List Byte) :
    (deliverAll (absorbBlocks msg) e).Feeding (msg.take (16 * (msg.length / 16))) seed :=
  feeding_blocks h msg (msg.length / 16) (by omega)

/-- Blocks alone are the whole message when its length is a multiple of 16. -/
theorem fed_absorbBlocks {e : Engine} {seed : BitVec 32} (h : e.Feeding [] seed) {msg : List Byte}
    (hwhole : msg.length % 16 = 0) : (deliverAll (absorbBlocks msg) e).Fed msg seed := by
  have blocks := feeding_absorbBlocks h msg
  rw [show 16 * (msg.length / 16) = msg.length by omega, List.take_length] at blocks
  exact blocks.fed

/-- Blocks and then the tail are the whole message. -/
theorem fed_absorbBlocks_tail {e : Engine} {seed : BitVec 32} (h : e.Feeding [] seed) (msg : List Byte) :
    (deliverAll (absorbBlocks msg ++ absorbTailBytes (tailOf msg)) e).Fed msg seed := by
  have rest : tailOf msg = msg.drop (16 * (msg.length / 16)) := List.take_of_length_le (by simp)
  have short : (tailOf msg).length ≤ 15 := by
    rw [rest, List.length_drop]
    omega
  have tail := fed_absorbTailBytes (feeding_absorbBlocks h msg) short
  rwa [rest, List.take_append_drop, ← rest, ← deliverAll_append] at tail

theorem finished_final {e : Engine} {msg : List Byte} {seed : BitVec 32} (h : e.Fed msg seed) :
    (deliverEngine (issue .final) e).Finished msg seed := by
  rw [deliverEngine_issue rfl, execEngine_of_legal (i := .final) h.err h.phase, commandEffect]
  exact ⟨(finalizeMessage_err _).trans h.err, finalizeMessage_phase _, hashes_finalizeMessage h.hashes h.phase⟩

/-! ## HASH -/

/-- What a finished message of representable length leaves in LEN, H1 and H2. -/
theorem Engine.Finished.len_digest {e : Engine} {msg : List Byte} {seed : BitVec 32} (h : e.Finished msg seed)
    (hlt : msg.length < 2 ^ 64) : e.len.toNat = msg.length ∧ e.digest = murmur3 msg seed := by
  refine ⟨?_, h.hashes.finished h.phase hlt⟩
  rw [h.hashes.counted (by simp [h.phase]), BitVec.toNat_ofNat, Nat.mod_eq_of_lt hlt]

/-- A program that feeds a message and finalizes it ends with the reference digest. -/
theorem runAll_hash {feed : List HostEvent} {msg : List Byte} {seed : BitVec 32} {s : State}
    (hfed : ∀ e : Engine, e.Feeding [] seed → (deliverAll feed e).Fed msg seed) (hlt : msg.length < 2 ^ 64)
    (herr : s.engine.err = false) :
    ∃ t, runAll ([wr .seed (zextSeed seed), issue .init] ++ feed ++ [issue .final]) s = .next t ∧
      t.engine.err = false ∧ t.engine.phase = .done ∧ t.engine.len.toNat = msg.length ∧
      t.engine.digest = murmur3 msg seed := by
  obtain ⟨t, hrun, heq⟩ := runAll_eq ([wr .seed (zextSeed seed), issue .init] ++ feed ++ [issue .final]) s
  have finished := finished_final (hfed _ (feeding_open seed herr))
  rw [deliverAll_append, deliverAll_append, deliverAll_cons, deliverAll_nil] at heq
  rw [← heq] at finished
  exact ⟨t, hrun, finished.err, finished.phase, finished.len_digest hlt⟩

/-- Settles O53: HASH feeds the blocks and the tail, or the blocks alone when there is no tail, and finalizes. -/
theorem hashSequenceComputesTheReferenceHash : Obligations.HashSequenceComputesTheReferenceHash := by
  intro msg seed s hlt herr
  constructor
  · have program := runAll_hash (seed := seed) (fun e h => fed_absorbBlocks_tail h msg) hlt herr
    rwa [← List.append_assoc] at program
  · intro hwhole
    exact runAll_hash (fun e h => fed_absorbBlocks h hwhole) hlt herr

/-! ## The fingerprint's program -/

/-- The sample is presented with a tail below the threshold, and has none from there on (R124). -/
theorem fed_presentSample {e : Engine} {seed : BitVec 32} (h : e.Feeding [] seed) (b : List Byte) :
    (deliverAll (presentSample b) e).Fed (sample b) seed := by
  by_cases hlt : b.length < 131072
  · rw [show presentSample b = absorbBlocks b ++ absorbTailBytes (tailOf b) from if_pos hlt, sample_of_lt hlt]
    exact fed_absorbBlocks_tail h b
  · rw [show presentSample b = absorbBlocks (sample b) from if_neg hlt]
    exact fed_absorbBlocks h (by rw [sample_length (Nat.not_lt.1 hlt)])

theorem sample_length_lt {b : List Byte} (h : b.length < 2 ^ 64) : (sample b).length < 2 ^ 64 := by
  by_cases hlt : b.length < 131072
  · rwa [sample_of_lt hlt]
  · rw [sample_length (Nat.not_lt.1 hlt)]
    decide

/-- VENC and COMPOSE after a finished message leave the composition of the value's encoding and the digest. -/
theorem Engine.Finished.composed {e : Engine} {msg : List Byte} {seed : BitVec 32} (h : e.Finished msg seed)
    (hlt : msg.length < 2 ^ 64) (v : Word) :
    (deliverAll [wr .vin v, issue .venc, issue .compose] e).FingerprintReady ∧
      compose (varint v) (murmur3 msg seed) =
        some (deliverAll [wr .vin v, issue .venc, issue .compose] e).fingerprint := by
  have encoded : deliverAll [wr .vin v, issue .venc] e = encodeVin { e with vin := v } := by
    rw [deliverAll_cons, deliverEngine_wr (r := .vin) nofun rfl, deliverAll_cons, deliverAll_nil,
      deliverEngine_issue rfl]
    exact execEngine_venc h.err
  generalize hf : encodeVin { e with vin := v } = f at encoded
  have err : f.err = false := by rw [← hf, encodeVin_err]; exact h.err
  have phase : f.phase = .done := by rw [← hf, encodeVin_phase]; exact h.phase
  have valid : f.vvalid = true := by rw [← hf, encodeVin_vvalid]
  have encoding : f.encoding = varint v := by rw [← hf, encoding_encodeVin]
  have digest : f.digest = murmur3 msg seed := by
    rw [← hf, Engine.digest, encodeVin_h1, encodeVin_h2]
    exact (h.len_digest hlt).2
  have run : deliverAll [wr .vin v, issue .venc, issue .compose] e = composeFingerprint f := by
    rw [show [wr .vin v, issue .venc, issue .compose] = [wr .vin v, issue .venc] ++ [issue .compose] from rfl,
      deliverAll_append, encoded, deliverAll_cons, deliverAll_nil, deliverEngine_issue rfl,
      execEngine_of_legal (i := .compose) err ⟨phase, valid⟩, commandEffect]
  rw [run, ← encoding, ← digest, compose_eq_composeFingerprint]
  exact ⟨⟨composeFingerprint_fpvalid f, (composeFingerprint_err f).trans err⟩, rfl⟩

/-- Settles O54: the sample is fed and finalized, and then the length is encoded and composed with the digest. -/
theorem fingerprintSequenceComputesTheFingerprint : Obligations.FingerprintSequenceComputesTheFingerprint := by
  intro b s hlt herr
  obtain ⟨t, hrun, heq⟩ := runAll_eq (fingerprintOps b) s
  have finished := finished_final (fed_presentSample (feeding_open 0 herr) b)
  obtain ⟨ready, composed⟩ := finished.composed (sample_length_lt hlt) (BitVec.ofNat 64 b.length)
  rw [fingerprintOps, deliverAll_append, deliverAll_append, deliverAll_cons] at heq
  refine ⟨t, hrun, ?_, ?_⟩
  · rw [heq]
    exact ready
  · rw [heq]
    exact composed

end Sys2Proof.Machine
end
